-- ==== Sys2Proof/Word.lean ====
section
/-! DEFINITION. Words of emul8 CORE: the widths of spec/00_scope.md R5 and R6. Every quantity is unsigned. -/

namespace Sys2Proof

/-- A general register, a timer, a memory byte, a constant `kk` (R5 `XLEN`). -/
abbrev Byte := BitVec 8

/-- The index register, the program counter, a return address, an opcode word (R5 `ILEN`, `PCLEN`). -/
abbrev Word := BitVec 16

/-- A nibble: a register field `x` or `y`, a sprite height `n`, an opcode nibble (R6, R47). -/
abbrev Nibble := BitVec 4

/-- The 12 address bits an opcode carries (R5 `ADDR_BITS`, R47 `nnn`). -/
abbrev Addr := BitVec 12

end Sys2Proof
end

