-- ==== Sys2Proof/WellFormed.lean ====
section
/-! DEFINITION. Well-formed instructions. The one condition is that of spec/30_encoding.md R53: `SYS(nnn)` is
produced only with `nnn` not in `0x0E0`, `0x0EE`, which are CLS and RET. -/

namespace Sys2Proof

/-- R53. Every field has exactly the width of its row, so no other value is ill formed. -/
def Instr.wellFormed : Instr → Bool
  | .sys nnn => nnn != 0x0E0 && nnn != 0x0EE
  | _ => true

/-- `wellFormed`, as a proposition. -/
abbrev WellFormed (i : Instr) : Prop := i.wellFormed = true

end Sys2Proof
end

