-- ==== Sys2Proof/Decode.lean ====
section
/-! DEFINITION. The decoder of spec/30_encoding.md R45 to R57, total on every two bytes and rejecting by name, and
after it the encoder of R59. -/

namespace Sys2Proof

/-- R50, R56: the one way decoding fails, "carrying the raw nibbles for diagnostics". Safe: the spec's own error. -/
inductive DecodeError where
  | invalidInstruction (n3 n2 n1 n0 : Nibble)
  deriving DecidableEq, Repr

/-- R46: the high nibble of a byte. -/
def hiNibble (b : Byte) : Nibble := b.extractLsb' 4 4

/-- R46: the low nibble of a byte. -/
def loNibble (b : Byte) : Nibble := b.extractLsb' 0 4

/-- R47: the field `kk`. -/
def fieldKk (n1 n0 : Nibble) : Byte := n1 ++ n0

/-- R47: the field `nnn`. -/
def fieldNnn (n2 n1 n0 : Nibble) : Addr := n2 ++ n1 ++ n0

/-- R51 rows 1 to 3, tried in that order (R52). -/
def decodeZero (n2 n1 n0 : Nibble) : Instr :=
  if fieldNnn n2 n1 n0 = 0x0E0 then .cls
  else if fieldNnn n2 n1 n0 = 0x0EE then .ret
  else .sys (fieldNnn n2 n1 n0)

/-- R51 rows 11 to 19: the sub-opcode nibble of the `8xy_` forms. -/
def decodeEight (x y n0 : Nibble) : Option Instr :=
  match n0 with
  | 0x0#4 => some (.ldReg x y)
  | 0x1#4 => some (.or x y)
  | 0x2#4 => some (.and x y)
  | 0x3#4 => some (.xor x y)
  | 0x4#4 => some (.addReg x y)
  | 0x5#4 => some (.sub x y)
  | 0x6#4 => some (.shr x y)
  | 0x7#4 => some (.subn x y)
  | 0xE#4 => some (.shl x y)
  | _ => none

/-- R51 rows 25 and 26: the second byte of the `Ex__` forms. -/
def decodeE (x : Nibble) (kk : Byte) : Option Instr :=
  match kk with
  | 0x9E#8 => some (.skp x)
  | 0xA1#8 => some (.sknp x)
  | _ => none

/-- R51 rows 27 to 35: the second byte of the `Fx__` forms. -/
def decodeF (x : Nibble) (kk : Byte) : Option Instr :=
  match kk with
  | 0x07#8 => some (.ldVxDt x)
  | 0x0A#8 => some (.ldVxK x)
  | 0x15#8 => some (.ldDtVx x)
  | 0x18#8 => some (.ldStVx x)
  | 0x1E#8 => some (.addI x)
  | 0x29#8 => some (.ldF x)
  | 0x33#8 => some (.ldB x)
  | 0x55#8 => some (.ldIVx x)
  | 0x65#8 => some (.ldVxI x)
  | _ => none

/-- R51: the opcode map on the four nibbles, `none` where no row matches (R55). -/
def decodeNibbles (n3 n2 n1 n0 : Nibble) : Option Instr :=
  match n3 with
  | 0x0#4 => some (decodeZero n2 n1 n0)
  | 0x1#4 => some (.jp (fieldNnn n2 n1 n0))
  | 0x2#4 => some (.call (fieldNnn n2 n1 n0))
  | 0x3#4 => some (.seImm n2 (fieldKk n1 n0))
  | 0x4#4 => some (.sneImm n2 (fieldKk n1 n0))
  | 0x5#4 => if n0 = 0 then some (.seReg n2 n1) else none
  | 0x6#4 => some (.ldImm n2 (fieldKk n1 n0))
  | 0x7#4 => some (.addImm n2 (fieldKk n1 n0))
  | 0x8#4 => decodeEight n2 n1 n0
  | 0x9#4 => if n0 = 0 then some (.sneReg n2 n1) else none
  | 0xA#4 => some (.ldI (fieldNnn n2 n1 n0))
  | 0xB#4 => some (.jpV0 (fieldNnn n2 n1 n0))
  | 0xC#4 => some (.rnd n2 (fieldKk n1 n0))
  | 0xD#4 => some (.drw n2 n1 n0)
  | 0xE#4 => decodeE n2 (fieldKk n1 n0)
  | 0xF#4 => decodeF n2 (fieldKk n1 n0)
  | _ => none

/-- R50: `decode(raw_2_bytes)`, the byte at the lower address first (R32). -/
def decode (b0 b1 : Byte) : Except DecodeError Instr :=
  match decodeNibbles (hiNibble b0) (loNibble b0) (hiNibble b1) (loNibble b1) with
  | some i => .ok i
  | none => .error (.invalidInstruction (hiNibble b0) (loNibble b0) (hiNibble b1) (loNibble b1))

/-- R46: the first byte of an opcode word, the one at the lower address. -/
def wordHi (op : Word) : Byte := op.extractLsb' 8 8

/-- R46: the second byte of an opcode word. -/
def wordLo (op : Word) : Byte := op.extractLsb' 0 8

/-- R50 on the 16 opcode bits `op = b0 ++ b1` (R46). -/
def decodeWord (op : Word) : Except DecodeError Instr := decode (wordHi op) (wordLo op)

/-- R59: the word of an instruction: the row's fixed nibbles and, at their positions, its fields. -/
def encode : Instr → Word
  | .cls => 0x00E0
  | .ret => 0x00EE
  | .sys nnn => 0x0#4 ++ nnn
  | .jp nnn => 0x1#4 ++ nnn
  | .call nnn => 0x2#4 ++ nnn
  | .seImm x kk => 0x3#4 ++ x ++ kk
  | .sneImm x kk => 0x4#4 ++ x ++ kk
  | .seReg x y => 0x5#4 ++ x ++ y ++ 0x0#4
  | .ldImm x kk => 0x6#4 ++ x ++ kk
  | .addImm x kk => 0x7#4 ++ x ++ kk
  | .ldReg x y => 0x8#4 ++ x ++ y ++ 0x0#4
  | .or x y => 0x8#4 ++ x ++ y ++ 0x1#4
  | .and x y => 0x8#4 ++ x ++ y ++ 0x2#4
  | .xor x y => 0x8#4 ++ x ++ y ++ 0x3#4
  | .addReg x y => 0x8#4 ++ x ++ y ++ 0x4#4
  | .sub x y => 0x8#4 ++ x ++ y ++ 0x5#4
  | .shr x y => 0x8#4 ++ x ++ y ++ 0x6#4
  | .subn x y => 0x8#4 ++ x ++ y ++ 0x7#4
  | .shl x y => 0x8#4 ++ x ++ y ++ 0xE#4
  | .sneReg x y => 0x9#4 ++ x ++ y ++ 0x0#4
  | .ldI nnn => 0xA#4 ++ nnn
  | .jpV0 nnn => 0xB#4 ++ nnn
  | .rnd x kk => 0xC#4 ++ x ++ kk
  | .drw x y n => 0xD#4 ++ x ++ y ++ n
  | .skp x => 0xE#4 ++ x ++ 0x9E#8
  | .sknp x => 0xE#4 ++ x ++ 0xA1#8
  | .ldVxDt x => 0xF#4 ++ x ++ 0x07#8
  | .ldVxK x => 0xF#4 ++ x ++ 0x0A#8
  | .ldDtVx x => 0xF#4 ++ x ++ 0x15#8
  | .ldStVx x => 0xF#4 ++ x ++ 0x18#8
  | .addI x => 0xF#4 ++ x ++ 0x1E#8
  | .ldF x => 0xF#4 ++ x ++ 0x29#8
  | .ldB x => 0xF#4 ++ x ++ 0x33#8
  | .ldIVx x => 0xF#4 ++ x ++ 0x55#8
  | .ldVxI x => 0xF#4 ++ x ++ 0x65#8

/-- R54, R51: the row of an instruction in the opcode map, numbered from 0. -/
def tag : Instr → Nat
  | .cls => 0
  | .ret => 1
  | .sys _ => 2
  | .jp _ => 3
  | .call _ => 4
  | .seImm _ _ => 5
  | .sneImm _ _ => 6
  | .seReg _ _ => 7
  | .ldImm _ _ => 8
  | .addImm _ _ => 9
  | .ldReg _ _ => 10
  | .or _ _ => 11
  | .and _ _ => 12
  | .xor _ _ => 13
  | .addReg _ _ => 14
  | .sub _ _ => 15
  | .shr _ _ => 16
  | .subn _ _ => 17
  | .shl _ _ => 18
  | .sneReg _ _ => 19
  | .ldI _ => 20
  | .jpV0 _ => 21
  | .rnd _ _ => 22
  | .drw _ _ _ => 23
  | .skp _ => 24
  | .sknp _ => 25
  | .ldVxDt _ => 26
  | .ldVxK _ => 27
  | .ldDtVx _ => 28
  | .ldStVx _ => 29
  | .addI _ => 30
  | .ldF _ => 31
  | .ldB _ => 32
  | .ldIVx _ => 33
  | .ldVxI _ => 34

/-- R51, columns "match" and "mask" of the opcode map, row by row. -/
def opcodeMap : List (Word × Word) :=
  [(0x00E0, 0xFFFF), (0x00EE, 0xFFFF), (0x0000, 0xF000), (0x1000, 0xF000), (0x2000, 0xF000),
   (0x3000, 0xF000), (0x4000, 0xF000), (0x5000, 0xF00F), (0x6000, 0xF000), (0x7000, 0xF000)] ++
  [(0x8000, 0xF00F), (0x8001, 0xF00F), (0x8002, 0xF00F), (0x8003, 0xF00F), (0x8004, 0xF00F),
   (0x8005, 0xF00F), (0x8006, 0xF00F), (0x8007, 0xF00F), (0x800E, 0xF00F), (0x9000, 0xF00F)] ++
  [(0xA000, 0xF000), (0xB000, 0xF000), (0xC000, 0xF000), (0xD000, 0xF000), (0xE09E, 0xF0FF),
   (0xE0A1, 0xF0FF), (0xF007, 0xF0FF), (0xF00A, 0xF0FF), (0xF015, 0xF0FF), (0xF018, 0xF0FF)] ++
  [(0xF01E, 0xF0FF), (0xF029, 0xF0FF), (0xF033, 0xF0FF), (0xF055, 0xF0FF), (0xF065, 0xF0FF)]

/-- The word matches the row: it has the row's fixed bits (R51). -/
def matchesRow (op : Word) (row : Word × Word) : Bool := op &&& row.2 == row.1

/-- An instruction whose bits are `w`, numbered as spec/opcode_table.json numbers them: bit 15 of the one 16-bit word
is the top bit of the first byte (R46). The word is laid out big-endian (R32) and given to the decoder. -/
def decodeTableWord (nbits w : Nat) : Option Instr :=
  match decode (wordHi (BitVec.ofNat 16 (w % 2 ^ nbits))) (wordLo (BitVec.ofNat 16 (w % 2 ^ nbits))) with
  | .ok i => some i
  | .error _ => none

end Sys2Proof
end

