-- ==== Sys2Proof/Config.lean ====
section
/-! DEFINITION. What the implementation fixes (spec/00_scope.md R5, the named parameters of spec/92_eei_decisions.md)
and the free values: what the host does at each of its turns. -/

namespace Sys2Proof

/-- R5 `MEM_SIZE`: bytes of memory. -/
def Config.memSize : Nat := 4096

/-- R5 `PROGRAM_START`: the load address and the reset value of `pc`. -/
def Config.programStart : Word := 0x200

/-- R145: the longest program `load` accepts, `0x1000 - 0x200` bytes. -/
def Config.maxProgram : Nat := Config.memSize - Config.programStart.toNat

/-- R145: the argument of a `load` that has a meaning; of a longer one the host has no move (93 U1). -/
structure Program where
  bytes : List Byte
  fits : bytes.length ≤ Config.maxProgram
  deriving DecidableEq, Repr

/-- R144: the operations the host may do between two calls of `advance`, "in any order" (R149). -/
inductive HostOp where
  /-- R140 -/
  | reset
  /-- R145 -/
  | load (program : Program)
  /-- R146 -/
  | setKeys (keys : Vector Bool 16)
  /-- R147 -/
  | display
  /-- R148: any of the inspection reads. -/
  | inspect
  deriving DecidableEq, Repr

/-- One turn of the host's loop (R149): the operations it does, oldest first, then `advance(elapsed, rnd)` (R63).
A turn without `setKeys` leaves the latch as it is (R25, decision D30). -/
structure HostTurn where
  ops : List HostOp
  elapsed : Nat
  rnd : Byte
  deriving DecidableEq, Repr, Inhabited

/-- FREE VALUE: the host's turn number `n`, where the state's own script does not say it: the operations it does, the
time it reports and the random byte it supplies (R98: "under no law"). No body: nothing can evaluate it.
Mark: DESIGN CHOICE, safe; notes/assumptions/3.md. -/
opaque Config.turn : Nat → HostTurn

/-- R5 `TIME_UNIT`: units of `elapsed` in one second (nanoseconds; decision D1, notes/assumptions/9.md). -/
def Config.unitsPerSecond : Nat := 1000000000

/-- R5 `TIMER_HZ`. -/
def Config.timerHz : Nat := 60

/-- R5 `FONT_BASE`: the address of glyph 0 (decision D5, notes/assumptions/7.md). -/
def Config.fontBase : Nat := 0x000

/-- R5 `FONT`, R23: the default of the parameter, 16 glyphs of 5 rows, top row first
(general knowledge, not in the source; notes/assumptions/7.md). -/
def Config.font : List Byte :=
  [0xF0, 0x90, 0x90, 0x90, 0xF0,  0x20, 0x60, 0x20, 0x20, 0x70,
   0xF0, 0x10, 0xF0, 0x80, 0xF0,  0xF0, 0x10, 0xF0, 0x10, 0xF0] ++
  [0x90, 0x90, 0xF0, 0x10, 0x10,  0xF0, 0x80, 0xF0, 0x10, 0xF0,
   0xF0, 0x80, 0xF0, 0x90, 0xF0,  0xF0, 0x10, 0x20, 0x40, 0x40] ++
  [0xF0, 0x90, 0xF0, 0x90, 0xF0,  0xF0, 0x90, 0xF0, 0x10, 0xF0,
   0xF0, 0x90, 0xF0, 0x90, 0x90,  0xE0, 0x90, 0xE0, 0x90, 0xE0] ++
  [0xF0, 0x80, 0x80, 0x80, 0xF0,  0xE0, 0x90, 0x90, 0x90, 0xE0,
   0xF0, 0x80, 0xF0, 0x80, 0xF0,  0xF0, 0x80, 0xF0, 0x80, 0x80]

/-- The open parameter `SUB_FLAG_STRICT` (decision D11): whether the "no borrow" flag is 1 only where the minuend is
strictly greater. The default is false (notes/assumptions/11.md). -/
def Config.subFlagStrict : Bool := false

/-- The open parameter `STACK_LIMIT` (decision D6): the default is none, an unbounded call stack
(notes/assumptions/15.md). -/
def Config.stackLimit : Option Nat := none

end Sys2Proof
end

