-- ==== Sys2Proof/Machine/State.lean ====
section
/-! DEFINITION. The state of emul8 CORE (spec/10_state.md), its value after reset (R28), the four error kinds of
spec/60_exceptions.md R120, and the two ways the model itself can stop. -/

namespace Sys2Proof.Machine

/-- R20, R30: memory as the cells that differ from their reset contents: addresses strictly rising, no listed cell
equal to what an unlisted address reads as (notes/assumptions/8.md). -/
abbrev Memory := List Host.Cell

/-- R24: "a fixed 64×32 grid of boolean pixel states, row-major": 32 rows of 64 columns. The pixel of linear index
`y * 64 + x` is column `x` of row `y`. -/
abbrev Display := Vector (Vector Bool 64) 32

/-- R25: one bit for each key `0 .. 15`. -/
abbrev Keys := Vector Bool 16

/-- R120: the four error kinds, with the payloads of R121 to R124 (decision D18). An error is an outcome of
`advance`, after which the machine can be called again (R75): in the model it is a NEXT state that records it. -/
inductive EngineError where
  /-- R121: raised by the fetch, by the memory accesses of LD_B, LD_I_VX, LD_VX_I and DRW with the offending
  address, and by SKP and SKNP with the offending key number. -/
  | outOfBounds (info : Nat)
  /-- R122: raised by the decode phase, with the four raw nibbles. -/
  | invalidInstruction (n3 n2 n1 n0 : Nibble)
  /-- R123: raised by RET on the empty call stack. -/
  | noReturnAddress
  /-- R124: raised by every SYS, with its address field. -/
  | unsupportedExternalCall (nnn : Addr)
  deriving DecidableEq, Repr

/-- R9: what `advance` returns. -/
inductive AdvanceResult where
  | ok
  | error (e : EngineError)
  deriving DecidableEq, Repr

/-- The machine. The first ten fields are the spec's state (10_state sections 1 to 8); the last five are the model's
own: the arguments and the return value of `advance`, which a step without arguments keeps as data. -/
structure State where
  /-- R10, R11: `V[0] .. V[15]`; `VF` is `V[15]`. -/
  v : Vector Byte 16
  /-- R13: the index register `I`. -/
  i : Word
  /-- R14: the program counter. -/
  pc : Word
  /-- R16: the call stack, most recently pushed entry first. -/
  stack : List Word
  /-- R17: the delay timer `DT`. -/
  dt : Byte
  /-- R18: the sound timer `ST`. -/
  st : Byte
  /-- R19: the timer accumulator, in nanoseconds. -/
  acc : Nat
  /-- R20: memory. -/
  mem : Memory
  /-- R24: the display buffer. -/
  display : Display
  /-- R25: the input latch. -/
  key : Keys
  /-- Model's own: the `rnd` argument of the `advance` in progress (R63, R27; notes/assumptions/4.md). -/
  rnd : Byte
  /-- Model's own: what the last `advance` returned (R9; notes/assumptions/1.md). -/
  result : AdvanceResult
  /-- Model's own: the first error returned, never cleared (93 U4; notes/assumptions/2.md). -/
  firstError : Option EngineError
  /-- Model's own: the host's turns to come, as far as they are known (R149; notes/assumptions/3.md). -/
  script : List HostTurn
  /-- Model's own: how many turns the host has taken; selects the free value `Config.turn` where `script` is empty. -/
  calls : Nat
  deriving DecidableEq, Repr

/-- The machine's stops with a fault. The spec's own errors are not among them: they are next states. -/
inductive Fault where
  /-- Raised by CALL where the open parameter STACK_LIMIT (decision D6, 93 U13) is a number and the stack is that deep.
  Safe: with the default `Config.stackLimit = none` nothing raises it. -/
  | stackLimitExceeded
  deriving DecidableEq, Repr

/-- The machine's refusals. -/
inductive Refusal where
  /-- An instruction of the table without a meaning in the model; no arm answers it. Safe. -/
  | notModelled (mnemonic : String)
  /-- Raised by the host operation `load` for more than 3584 bytes, whose behaviour the spec does not define
  (93 U1, R145: "the model refuses such a load"). No step raises it. Safe. -/
  | loadTooLong
  deriving DecidableEq, Repr

/-- The outcome of a meaning or a step. -/
abbrev StepOutcome := Host.Outcome State Fault Refusal

/-- R28, R140: the machine right after reset. The model's own fields are at the values of notes/assumptions/5.md. -/
def State.reset : State where
  v := Vector.replicate 16 0
  i := 0
  pc := Config.programStart
  stack := []
  dt := 0
  st := 0
  acc := 0
  mem := []
  display := Vector.replicate 32 (Vector.replicate 64 false)
  key := Vector.replicate 16 false
  rnd := 0
  result := .ok
  firstError := none
  script := []
  calls := 0

end Sys2Proof.Machine
end

