-- ==== Sys2Proof/Machine/Ops.lean ====
section
/-! DEFINITION. The named operations of emul8 CORE over registers, memory, call stack, display and program counter,
and the one error entry of spec/60_exceptions.md R125. There is no return from an error to stand beside it: R130,
"There is no return-from-trap instruction and nothing to restore". -/

namespace Sys2Proof.Machine

/-! ## Registers -/

/-- R10: read `V[x]`. A 4-bit field selects one of the 16, so no index is out of range. -/
def State.reg (s : State) (x : Nibble) : Byte := s.v[x.toNat]'x.isLt

/-- R10: `V[x] <- b`. -/
def State.setReg (s : State) (x : Nibble) (b : Byte) : State := { s with v := s.v.set x.toNat b x.isLt }

/-- R11: register 15, `VF`, the same storage as `V[15]`. -/
def flagReg : Nibble := 15

/-- R86, D10: the result to `V[x]` first, the flag to `VF` last, so that with `x = 15` the flag stays. -/
def State.setRegAndFlag (s : State) (x : Nibble) (r flag : Byte) : State := (s.setReg x r).setReg flagReg flag

/-- R13: `I <- w`. -/
def State.setIndex (s : State) (w : Word) : State := { s with i := w }

/-- R114: `DT <- b`. -/
def State.setDt (s : State) (b : Byte) : State := { s with dt := b }

/-- R115: `ST <- b`. -/
def State.setSt (s : State) (b : Byte) : State := { s with st := b }

/-! ## Memory (spec/20_memory.md) -/

/-- R28, R40: what an unlisted address reads as: the font at `FONT_BASE`, zero everywhere else. -/
def Memory.initial (a : Nat) : Byte :=
  if Config.fontBase ≤ a then Config.font.getD (a - Config.fontBase) 0 else 0

/-- The listed byte at `a`, if one is listed. -/
def Memory.find (a : Nat) : Memory → Option Byte
  | [] => none
  | c :: m => if c.1 = a then some c.2 else Memory.find a m

/-- R37: the byte at `a`. -/
def Memory.read (m : Memory) (a : Nat) : Byte := (Memory.find a m).getD (Memory.initial a)

/-- The cell `(a, b)` at its place in a rising list. -/
def Memory.insert (a : Nat) (b : Byte) : Memory → Memory
  | [] => [(a, b)]
  | c :: m =>
    if a < c.1 then (a, b) :: c :: m
    else if a = c.1 then (a, b) :: m
    else c :: Memory.insert a b m

/-- The list without its cells at `a`. -/
def Memory.remove (a : Nat) : Memory → Memory
  | [] => []
  | c :: m => if c.1 = a then Memory.remove a m else c :: Memory.remove a m

/-- R38: `Mem[a] <- b`. Writing what an unlisted address reads as removes the cell, so equal memories are equal lists. -/
def Memory.write (m : Memory) (a : Nat) (b : Byte) : Memory :=
  if b = Memory.initial a then Memory.remove a m else Memory.insert a b m

/-- The canonical form: addresses strictly rising, inside memory, no cell equal to its reset contents. -/
abbrev Memory.wf (m : Memory) : Prop :=
  m.Pairwise (fun c d => c.1 < d.1) ∧ ∀ c ∈ m, c.1 < Config.memSize ∧ c.2 ≠ Memory.initial c.1

/-- What a run of accesses inside one instruction gives: the state they leave, or the error that ended them with the
state left at the failure point (R73). -/
abbrev Access := Except (EngineError × State) State

/-- R35, R37: `MemRead(a, 1)`, checked when it is made. -/
def State.memRead (s : State) (a : Nat) : Except EngineError Byte :=
  if a < Config.memSize then .ok (s.mem.read a) else .error (.outOfBounds a)

/-- R35, R38: `MemWrite(a, 1, b)`, checked when it is made. -/
def State.memWrite (s : State) (a : Nat) (b : Byte) : Access :=
  if a < Config.memSize then .ok { s with mem := s.mem.write a b } else .error (.outOfBounds a, s)

/-! ## Call stack -/

/-- R16: `push(stack, w)`. -/
def State.push (s : State) (w : Word) : State := { s with stack := w :: s.stack }

/-- D6, 93 U13: whether one more entry fits; always so under the default, which is unbounded. -/
def State.stackHasRoom (s : State) : Bool :=
  match Config.stackLimit with
  | none => true
  | some limit => s.stack.length < limit

/-! ## Display -/

/-- R24: the pixel in column `col` of row `row`. -/
def Display.pixel (d : Display) (col : Fin 64) (row : Fin 32) : Bool := d[row][col]

/-- R110: `display[k] <- display[k] XOR 1`, for the pixel in column `col` of row `row`. -/
def Display.toggle (d : Display) (col : Fin 64) (row : Fin 32) : Display :=
  d.set row (d[row].set col (!d[row][col]))

/-- R109: every pixel dark. -/
def Display.dark : Display := Vector.replicate 32 (Vector.replicate 64 false)

/-! ## Program counter and outcome (R72, R73) -/

/-- `pc <- target`, the last effect of an instruction; `advance` then returns `Ok` (R64, R72). -/
def State.goTo (s : State) (target : Word) : State := { s with pc := target, result := .ok }

/-- R8 `next`: `pc <- (pc + 2) mod 65536`. -/
def State.toNext (s : State) : State := s.goTo (s.pc + 2)

/-- R8 `skip`: `pc <- (pc + 4) mod 65536`. -/
def State.toSkip (s : State) : State := s.goTo (s.pc + 4)

/-- R8 `stay`: `pc` unchanged; the stall of R74, which returns `Ok`. -/
def State.stay (s : State) : State := s.goTo s.pc

/-- R72: a conditional skip. -/
def State.skipIf (s : State) (taken : Bool) : State := s.goTo (if taken then s.pc + 4 else s.pc + 2)

/-- ERROR ENTRY, R125: `raise <Kind>(info)` on the state left at the failure point. `pc` keeps the address of the
faulting instruction, nothing is saved anywhere, and `advance` returns the error. The first error is kept (93 U4). -/
def State.raise (s : State) (e : EngineError) : State :=
  { s with result := .error e, firstError := s.firstError.or (some e) }

/-- R73: how an instruction ends after its accesses: its remaining effects where they all succeeded, else the error
entry on what they left. -/
def Access.finish (rest : State → State) : Access → StepOutcome
  | .ok s => .next (rest s)
  | .error (e, s) => .next (s.raise e)

/-- R120: the numbers this spec assigns to the error kinds (decision D18); nothing depends on them. -/
def EngineError.code : EngineError → Nat
  | .outOfBounds _ => 1
  | .invalidInstruction _ _ _ _ => 2
  | .noReturnAddress => 3
  | .unsupportedExternalCall _ => 4

end Sys2Proof.Machine
end

