-- ==== Sys2Proof/Machine/Flags.lean ====
section
/-! DEFINITION. The flag computations of emul8 CORE, the table of spec/43_alu.md R100: what each flag-setting
instruction writes to `VF`. -/

namespace Sys2Proof.Machine

/-- A flag as the byte `VF` receives: 1 or 0. -/
def flagByte (b : Bool) : Byte := if b then 1 else 0

/-- R93: carry out of `a + b`: the sum, a natural number, exceeds 255. -/
def carryFlag (a b : Byte) : Byte := flagByte (decide (a.toNat + b.toNat > 255))

/-- R94, R96: NOT borrow of `a - b`. `strict` is the open parameter SUB_FLAG_STRICT (decision D11). -/
def noBorrowFlag (strict : Bool) (a b : Byte) : Byte :=
  flagByte (if strict then decide (b.toNat < a.toNat) else decide (b.toNat ≤ a.toNat))

/-- R95: the bit a right shift pushes out, bit 0. -/
def shiftedOutRight (b : Byte) : Byte := flagByte (b.getLsbD 0)

/-- R97: the bit a left shift pushes out, bit 7. -/
def shiftedOutLeft (b : Byte) : Byte := flagByte (b.getLsbD 7)

/-- R104: the whole sum `I + V[x]`, a natural number, lies beyond the last memory address (decision D13). -/
def indexRangeFlag (i : Word) (a : Byte) : Byte := flagByte (decide (i.toNat + a.toNat > 0x0FFF))

end Sys2Proof.Machine
end

