-- ==== Sys2Proof/Machine/Operands.lean ====
section
/-! DEFINITION. The operand forms of emul8 CORE: zero-extended fields (spec/30_encoding.md R49), the one data
addressing mode (spec/44_index_memory.md R102), the key number (spec/46_timer_input.md R116) and the wrapped sprite
coordinates (spec/45_display.md R111). -/

namespace Sys2Proof.Machine

/-- R49: `zext_16(nnn)`. -/
def zextAddr (nnn : Addr) : Word := nnn.setWidth 16

/-- R6: `zext_16(b)`. -/
def zextByte (b : Byte) : Word := b.setWidth 16

/-- R102, R36: the effective address `I + k` of the `k`-th byte of an access, a natural number, never wrapped. -/
def State.dataAddr (s : State) (k : Nat) : Nat := s.i.toNat + k

/-- R107, R108: the register number `k` of a block transfer, `k` at most 15. -/
def blockReg (k : Nat) : Nibble := BitVec.ofNat 4 k

/-- R116: the latch bit of the key numbered `k`. -/
def State.keyDown (s : State) (k : Fin 16) : Bool := s.key[k]

/-- R116, R117: the key number `V[x]`, or `OutOfBounds` where it exceeds 15. -/
def State.keyOperand (s : State) (x : Nibble) : Except EngineError (Fin 16) :=
  if h : (s.reg x).toNat < 16 then .ok ⟨(s.reg x).toNat, h⟩ else .error (.outOfBounds (s.reg x).toNat)

/-- R118: the least pressed key, if one is pressed. -/
def State.firstKey (s : State) : Option (Fin 16) := (List.finRange 16).find? s.keyDown

/-- R111: the column of sprite column `c` drawn at `vx`: `(vx + c) mod 64`. -/
def spriteCol (vx : Byte) (c : Nat) : Fin 64 := Fin.ofNat 64 (vx.toNat + c)

/-- R111: the row of sprite row `r` drawn at `vy`: `(vy + r) mod 32`. -/
def spriteRow (vy : Byte) (r : Nat) : Fin 32 := Fin.ofNat 32 (vy.toNat + r)

/-- R110: the sprite bit of column `c` in a row byte: bit `7 - c`, bit 7 leftmost (decision D16). -/
def spriteBit (b : Byte) (c : Nat) : Bool := b.getLsbD (7 - c)

end Sys2Proof.Machine
end

