-- ==== Sys2Proof/Machine/Alu.lean ====
section
/-! DEFINITION. Register and ALU instructions (spec/43_alu.md R86 to R101). Each reads its sources first, writes the
result to `V[x]`, then, where it sets a flag, writes `VF` (R86), and ends with `next`. -/

namespace Sys2Proof.Machine

/-- The instructions of this family that set no flag: `V[x] <- r`, then `next`. -/
def State.plainResult (s : State) (x : Nibble) (r : Byte) : State := (s.setReg x r).toNext

/-- The instructions of this family that set the flag: `V[x] <- r`, `VF <- flag`, then `next` (R86). -/
def State.flaggedResult (s : State) (x : Nibble) (r flag : Byte) : State := (s.setRegAndFlag x r flag).toNext

/-- R87. -/
def execLdImm (x : Nibble) (kk : Byte) (s : State) : StepOutcome := .next (s.plainResult x kk)

/-- R88: `(V[x] + kk) mod 256`, no flag (decision D12). -/
def execAddImm (x : Nibble) (kk : Byte) (s : State) : StepOutcome := .next (s.plainResult x (s.reg x + kk))

/-- R89. -/
def execLdReg (x y : Nibble) (s : State) : StepOutcome := .next (s.plainResult x (s.reg y))

/-- R90: `VF` is neither set nor cleared (decision D12). -/
def execOr (x y : Nibble) (s : State) : StepOutcome := .next (s.plainResult x (s.reg x ||| s.reg y))

/-- R91: `VF` is neither set nor cleared (decision D12). -/
def execAnd (x y : Nibble) (s : State) : StepOutcome := .next (s.plainResult x (s.reg x &&& s.reg y))

/-- R92: `VF` is neither set nor cleared (decision D12). -/
def execXor (x y : Nibble) (s : State) : StepOutcome := .next (s.plainResult x (s.reg x ^^^ s.reg y))

/-- R93: no carry in; `VF` is the carry out. -/
def execAddReg (x y : Nibble) (s : State) : StepOutcome :=
  .next (s.flaggedResult x (s.reg x + s.reg y) (carryFlag (s.reg x) (s.reg y)))

/-- R94: `V[x] - V[y]`; `VF` is NOT borrow. -/
def execSub (x y : Nibble) (s : State) : StepOutcome :=
  .next (s.flaggedResult x (s.reg x - s.reg y) (noBorrowFlag Config.subFlagStrict (s.reg x) (s.reg y)))

/-- R95: `V[y]` shifted right by one into `V[x]`. -/
def execShr (x y : Nibble) (s : State) : StepOutcome :=
  .next (s.flaggedResult x (s.reg y >>> 1) (shiftedOutRight (s.reg y)))

/-- R96: `V[y] - V[x]`, into `V[x]`; `VF` is NOT borrow. -/
def execSubn (x y : Nibble) (s : State) : StepOutcome :=
  .next (s.flaggedResult x (s.reg y - s.reg x) (noBorrowFlag Config.subFlagStrict (s.reg y) (s.reg x)))

/-- R97: `V[y]` shifted left by one into `V[x]`. -/
def execShl (x y : Nibble) (s : State) : StepOutcome :=
  .next (s.flaggedResult x (s.reg y <<< 1) (shiftedOutLeft (s.reg y)))

/-- R98: the random byte of this `advance`, masked. -/
def execRnd (x : Nibble) (kk : Byte) (s : State) : StepOutcome := .next (s.plainResult x (s.rnd &&& kk))

end Sys2Proof.Machine
end

