-- ==== Sys2Proof/Machine/Flow.lean ====
section
/-! DEFINITION. Control transfer: SYS, RET, JP, CALL, JP_V0 (spec/41_flow.md R77 to R81). -/

namespace Sys2Proof.Machine

/-- R77: "must fail with a distinct, diagnosable error": the error entry, on every execution. -/
def execSys (nnn : Addr) (s : State) : StepOutcome := .next (s.raise (.unsupportedExternalCall nnn))

/-- R78: the most recently pushed entry is removed and becomes `pc`, with nothing added. -/
def execRet (s : State) : StepOutcome :=
  match s.stack with
  | [] => .next (s.raise .noReturnAddress)
  | t :: rest => .next ({ s with stack := rest }.goTo t)

/-- R79. -/
def execJp (nnn : Addr) (s : State) : StepOutcome := .next (s.goTo (zextAddr nnn))

/-- R80: the address of the next instruction is pushed (decision D7). The stack is unbounded under the default. -/
def execCall (nnn : Addr) (s : State) : StepOutcome :=
  if s.stackHasRoom then .next ((s.push (s.pc + 2)).goTo (zextAddr nnn)) else .fault .stackLimitExceeded

/-- R81: the sum is not reduced to 12 bits (decision D9); the offset register is always `V[0]`. -/
def execJpV0 (nnn : Addr) (s : State) : StepOutcome := .next (s.goTo (zextAddr nnn + zextByte (s.reg 0)))

end Sys2Proof.Machine
end

