-- ==== Sys2Proof/Machine/Index.lean ====
section
/-! DEFINITION. Index register and memory instructions (spec/44_index_memory.md R102 to R108). Bytes are accessed one
at a time in ascending offset, each checked when its turn comes; what was done before a failing access stays (R102). -/

namespace Sys2Proof.Machine

/-- R103. -/
def execLdI (nnn : Addr) (s : State) : StepOutcome := .next (s.setIndex (zextAddr nnn)).toNext

/-- R104: the sum wraps modulo 65536; `VF`, written last, says that the whole sum exceeds `0x0FFF`. -/
def execAddI (x : Nibble) (s : State) : StepOutcome :=
  .next ((s.setIndex (s.i + zextByte (s.reg x))).setReg flagReg (indexRangeFlag s.i (s.reg x))).toNext

/-- R105: the whole of `V[x]` is used (decision D14). -/
def execLdF (x : Nibble) (s : State) : StepOutcome :=
  .next (s.setIndex (BitVec.ofNat 16 Config.fontBase + 5 * zextByte (s.reg x))).toNext

/-- R106: the hundreds, tens and ones of a byte. -/
def bcdDigits (v : Byte) : List Byte :=
  [BitVec.ofNat 8 (v.toNat / 100), BitVec.ofNat 8 (v.toNat / 10 % 10), BitVec.ofNat 8 (v.toNat % 10)]

/-- R102: the bytes stored at `I + k`, `I + k + 1`, …, one checked write each. -/
def storeBytes : List Byte → Nat → State → Access
  | [], _, s => .ok s
  | b :: bytes, k, s => (s.memWrite (s.dataAddr k) b).bind (storeBytes bytes (k + 1))

/-- R106. -/
def execLdB (x : Nibble) (s : State) : StepOutcome :=
  (storeBytes (bcdDigits (s.reg x)) 0 s).finish State.toNext

/-- R107: the registers `V[0] .. V[x]`, in order. -/
def State.regBlock (s : State) (x : Nibble) : List Byte := (List.range (x.toNat + 1)).map fun k => s.reg (blockReg k)

/-- R107: no write of a block store changes a register, so the bytes are those held when it begins. -/
def execLdIVx (x : Nibble) (s : State) : StepOutcome := (storeBytes (s.regBlock x) 0 s).finish State.toNext

/-- R108: `count` registers from number `k` on, each written as its byte is read. -/
def loadRegs : Nat → Nat → State → Access
  | 0, _, s => .ok s
  | count + 1, k, s =>
    match s.memRead (s.dataAddr k) with
    | .error e => .error (e, s)
    | .ok b => loadRegs count (k + 1) (s.setReg (blockReg k) b)

/-- R108: the count is the field `x` plus one, fixed at decode. -/
def execLdVxI (x : Nibble) (s : State) : StepOutcome := (loadRegs (x.toNat + 1) 0 s).finish State.toNext

end Sys2Proof.Machine
end

