-- ==== Sys2Proof/Machine/Screen.lean ====
section
/-! DEFINITION. Display instructions: CLS and DRW (spec/45_display.md R109 to R112). -/

namespace Sys2Proof.Machine

/-- R109: all 2048 pixels dark, nothing else. -/
def execCls (s : State) : StepOutcome := .next { s with display := Display.dark }.toNext

/-- R110, R112: one sprite pixel: where its bit is 1, the pixel under it is a hit if it was lit, and is toggled. -/
def drawPixel (b vx vy : Byte) (r c : Nat) (dh : Display × Bool) : Display × Bool :=
  if spriteBit b c then
    (dh.1.toggle (spriteCol vx c) (spriteRow vy r), dh.2 || dh.1.pixel (spriteCol vx c) (spriteRow vy r))
  else dh

/-- R110: `count` pixels of one sprite row from column `c` on, left to right. -/
def drawRow (b vx vy : Byte) (r : Nat) : Nat → Nat → Display × Bool → Display × Bool
  | 0, _, dh => dh
  | count + 1, c, dh => drawRow b vx vy r count (c + 1) (drawPixel b vx vy r c dh)

/-- R110: `count` sprite rows from row `r` on, each byte read when its row is drawn; a row out of bounds leaves the
rows before it drawn. The answer is the state with the display drawn, and whether a lit pixel was erased. -/
def drawRows (vx vy : Byte) : Nat → Nat → Bool → State → Except (EngineError × State) (State × Bool)
  | 0, _, hit, s => .ok (s, hit)
  | count + 1, r, hit, s =>
    match s.memRead (s.dataAddr r) with
    | .error e => .error (e, s)
    | .ok b =>
      let dh := drawRow b vx vy r 8 0 (s.display, hit)
      drawRows vx vy count (r + 1) dh.2 { s with display := dh.1 }

/-- R110: the coordinates are read first; `VF` is written once, after the last row, and not where a row fails. -/
def execDrw (x y n : Nibble) (s : State) : StepOutcome :=
  match drawRows (s.reg x) (s.reg y) n.toNat 0 false s with
  | .ok (t, hit) => .next (t.setReg flagReg (flagByte hit)).toNext
  | .error (e, t) => .next (t.raise e)

end Sys2Proof.Machine
end

