-- ==== Sys2Proof/Machine/Skip.lean ====
section
/-! DEFINITION. Conditional skips: SE_IMM, SNE_IMM, SE_REG, SNE_REG (spec/42_skip.md R82 to R85). -/

namespace Sys2Proof.Machine

/-- R82. -/
def execSeImm (x : Nibble) (kk : Byte) (s : State) : StepOutcome := .next (s.skipIf (s.reg x == kk))

/-- R83. -/
def execSneImm (x : Nibble) (kk : Byte) (s : State) : StepOutcome := .next (s.skipIf (s.reg x != kk))

/-- R84. -/
def execSeReg (x y : Nibble) (s : State) : StepOutcome := .next (s.skipIf (s.reg x == s.reg y))

/-- R85. -/
def execSneReg (x y : Nibble) (s : State) : StepOutcome := .next (s.skipIf (s.reg x != s.reg y))

end Sys2Proof.Machine
end

