-- ==== Sys2Proof/Machine/TimerKey.lean ====
section
/-! DEFINITION. Timer and keypad instructions (spec/46_timer_input.md R113 to R119). The latch is read, never written. -/

namespace Sys2Proof.Machine

/-- R113: `DT` as this `advance`'s timer phase left it. -/
def execLdVxDt (x : Nibble) (s : State) : StepOutcome := .next (s.setReg x s.dt).toNext

/-- R114: `acc` is neither read nor reset. -/
def execLdDtVx (x : Nibble) (s : State) : StepOutcome := .next (s.setDt (s.reg x)).toNext

/-- R115. -/
def execLdStVx (x : Nibble) (s : State) : StepOutcome := .next (s.setSt (s.reg x)).toNext

/-- R116: the range check comes first. -/
def execSkp (x : Nibble) (s : State) : StepOutcome :=
  match s.keyOperand x with
  | .ok k => .next (s.skipIf (s.keyDown k))
  | .error e => .next (s.raise e)

/-- R117: an out-of-range key number is an error, not "not pressed". -/
def execSknp (x : Nibble) (s : State) : StepOutcome :=
  match s.keyOperand x with
  | .ok k => .next (s.skipIf (!s.keyDown k))
  | .error e => .next (s.raise e)

/-- R118: with no key pressed the instruction stalls, which is `Ok` (R74); else the least pressed key is written. -/
def State.waitKey (s : State) (x : Nibble) : State :=
  match s.firstKey with
  | none => s.stay
  | some k => (s.setReg x (BitVec.ofNat 8 k.val)).toNext

/-- R118: level-sensitive, no wait for release (decision D27). -/
def execLdVxK (x : Nibble) (s : State) : StepOutcome := .next (s.waitKey x)

end Sys2Proof.Machine
end

