-- ==== Sys2Proof/Machine/HostOps.lean ====
section
/-! DEFINITION. The host's operations between two calls of `advance` (spec/70_reset_and_hazards.md R144): `reset`,
`load`, `set_keys`, `display` and the inspection reads, each one transition of the state, and a list of them done in
order (R149). `advance` is in Machine/Cycle.lean. -/

namespace Sys2Proof.Machine

/-- R146: `set_keys(vector)`, "fully replacing the previous latch". -/
def State.setKeys (s : State) (keys : Keys) : State := { s with key := keys }

/-- R145: `Mem[a + j] <- bytes[j]`, in ascending order. -/
def Memory.writeBlock (m : Memory) (a : Nat) : List Byte → Memory
  | [] => m
  | b :: bytes => Memory.writeBlock (m.write a b) (a + 1) bytes

/-- R140: `reset()` on any state: every piece of the spec's state as `State.reset` has it. The model's own fields stay:
the record of errors is never cleared (93 U4), and the host's turns go on. -/
def State.hostReset (s : State) : State :=
  { State.reset with
    rnd := s.rnd, result := s.result, firstError := s.firstError, script := s.script, calls := s.calls }

/-- R145: a program that fits, copied verbatim to `0x200`; nothing else changes. -/
def State.loadProgram (s : State) (p : Program) : State :=
  { s with mem := s.mem.writeBlock Config.programStart.toNat p.bytes }

/-- R145: `load(bytes)`; more than 3584 bytes are refused (93 U1). -/
def State.load (s : State) (bytes : List Byte) : StepOutcome :=
  if h : bytes.length ≤ Config.maxProgram then .next (s.loadProgram ⟨bytes, h⟩) else .refused .loadTooLong

/-- R144: the state after one operation of the host. `display` and the inspection reads change nothing (R147, R148);
what they answer is `State.screen` and the `State.inspect` functions below. -/
def State.perform (s : State) : HostOp → State
  | .reset => s.hostReset
  | .load p => s.loadProgram p
  | .setKeys keys => s.setKeys keys
  | .display => s
  | .inspect => s

/-- R149: the operations of a list, one after the other. -/
def State.performAll : List HostOp → State → State
  | [], s => s
  | op :: ops, s => State.performAll ops (s.perform op)

/-- R147: `display()`, the pixels as the last completed `advance` left them. -/
def State.screen (s : State) : Display := s.display

/-- R148: inspection of a register, the index "validated against 0–15". That the range error carries the register index
is the model's choice, since R148 names only the kind and decision D18 only addresses and key numbers
(DESIGN CHOICE, safe; notes/assumptions/25.md). -/
def State.inspectReg (s : State) (n : Nat) : Except EngineError Byte :=
  if h : n < 16 then .ok s.v[n] else .error (.outOfBounds n)

/-- R148: inspection of a memory byte, the address "validated against ... 0–4095"; the range error carries it (D18). -/
def State.inspectMem (s : State) (a : Nat) : Except EngineError Byte := s.memRead a

/-- R148: inspection of `pc`. -/
def State.inspectPc (s : State) : Word := s.pc

/-- R148: inspection of `I`. -/
def State.inspectIndex (s : State) : Word := s.i

/-- R148: inspection of the two timers, `DT` then `ST`. -/
def State.inspectTimers (s : State) : Byte × Byte := (s.dt, s.st)

end Sys2Proof.Machine
end

