-- ==== Sys2Proof/Machine/Cycle.lean ====
section
/-! DEFINITION. The cycle engine (spec/40_cycle_engine.md R63 to R76): the timer phase, the fetch, the decode, the
execution of the one decoded instruction, and the host's turn around them (spec/70_reset_and_hazards.md R149). -/

namespace Sys2Proof.Machine

/-! ## Timer phase -/

/-- R66: whether the accumulated time is at least one sixtieth of a second, inclusive. -/
def boundaryReached (acc : Nat) : Bool := decide (Config.unitsPerSecond ≤ Config.timerHz * acc)

/-- R66: one step of a timer, saturating at zero. -/
def countDown (t : Byte) : Byte := if t = 0 then 0 else t - 1

/-- R65 to R67: accumulate; at the boundary both timers step once and the accumulator restarts from zero. -/
def State.timerPhase (s : State) (elapsed : Nat) : State :=
  { s with
    dt := if boundaryReached (s.acc + elapsed) then countDown s.dt else s.dt
    st := if boundaryReached (s.acc + elapsed) then countDown s.st else s.st
    acc := if boundaryReached (s.acc + elapsed) then 0 else s.acc + elapsed }

/-! ## Fetch, decode, execute -/

/-- R37, R69: the two bytes at `pc` and `pc + 1`, the byte at `pc` checked first. -/
def State.fetch (s : State) : Except EngineError (Byte × Byte) :=
  match s.memRead s.pc.toNat with
  | .error e => .error e
  | .ok b0 =>
    match s.memRead (s.pc.toNat + 1) with
    | .error e => .error e
    | .ok b1 => .ok (b0, b1)

/-- R56, R122: a decode failure as the error of `advance`. -/
def decodeFailure : DecodeError → EngineError
  | .invalidInstruction n3 n2 n1 n0 => .invalidInstruction n3 n2 n1 n0

/-- R64 phases 2 to 5: fetch, decode, execute with its `pc` update; an error ends it at once (R73). -/
def State.runInstruction (s : State) : StepOutcome :=
  match s.fetch with
  | .error e => .next (s.raise e)
  | .ok (b0, b1) =>
    match decode b0 b1 with
    | .error e => .next (s.raise (decodeFailure e))
    | .ok i => exec i s

/-- R63, R64: `advance(elapsed, rnd)`: the timer phase always runs and always commits (R68), then one instruction. -/
def advance (elapsed : Nat) (rnd : Byte) (s : State) : StepOutcome :=
  ({ s with rnd := rnd }.timerPhase elapsed).runInstruction

/-! ## The host's turn -/

/-- The host's next turn: the first of the script, or the free value where the script has run out. -/
def State.hostTurn (s : State) : HostTurn :=
  match s.script with
  | [] => Config.turn s.calls
  | t :: _ => t

/-- The state in which the host calls `advance`: the turn is taken from the script, and its operations are done
(R149). A turn that does not set the latch leaves it (R25, decision D30). -/
def State.beginTurn (s : State) : State :=
  { s with script := s.script.tail, calls := s.calls + 1 }.performAll s.hostTurn.ops

/-- R149: one turn of the host's loop. -/
def State.takeTurn (s : State) : StepOutcome := advance s.hostTurn.elapsed s.hostTurn.rnd s.beginTurn

/-! ## Placing one instruction where the next fetch finds it -/

/-- An address whose two bytes can be fetched (R69): `pc` where it is one, else the entry point (R141). -/
def State.fetchablePc (s : State) : Word := if s.pc.toNat + 1 < Config.memSize then s.pc else Config.programStart

/-- The host's next turn without the operations before its `advance`, none of which can then load over the word. -/
def State.plainTurn (s : State) : HostTurn := { s.hostTurn with ops := [] }

/-- The word stored big-endian (R32) at the fetchable address, with `pc` there, and the host's next turn plain. -/
def State.placeWord (s : State) (op : Word) : State :=
  { s with
    pc := s.fetchablePc
    mem := (s.mem.write s.fetchablePc.toNat (wordHi op)).write (s.fetchablePc.toNat + 1) (wordLo op)
    script := s.plainTurn :: s.script.tail }

end Sys2Proof.Machine
end

