-- ==== Sys2Proof/Machine/Step.lean ====
section
/-! DEFINITION. The step: one turn of the host, that is, any operations of R144 and then exactly one `advance`, which
runs exactly one instruction (spec/40_cycle_engine.md R63, R71; spec/70_reset_and_hazards.md R149). -/

namespace Sys2Proof.Machine

/-- One step of the machine. -/
def step (s : State) : Host.Outcome State Fault Refusal := s.takeTurn

/-- The instruction whose bits are `w`, as spec/opcode_table.json numbers them, stored where `step` fetches its next
instruction (notes/assumptions/29.md). -/
def State.withFetchWord (s : State) (nbits w : Nat) : State := s.placeWord (BitVec.ofNat 16 (w % 2 ^ nbits))

end Sys2Proof.Machine
end

