-- ==== Sys2Proof/Safety.lean ====
section
/-! DEFINITION. The terms in which statements about the machine are made: what it is for an instruction to complete
or to raise an error, what it leaves unchanged, which registers it may write, what a sprite covers, and the invariant. -/

namespace Sys2Proof.Machine

/-! ## Outcomes -/

/-- The instruction runs to its end: a next state, and `advance` returns `Ok` (R64, R72). -/
def Completes (i : Instr) (s t : State) : Prop := exec i s = .next t ∧ t.result = .ok

/-- The instruction raises `e` (R125): a next state in which `pc` is the faulting instruction's address, `advance`
returns the error, and the first error is kept. -/
def RaisesError (i : Instr) (s : State) (e : EngineError) (t : State) : Prop :=
  exec i s = .next t ∧ t.result = .error e ∧ t.pc = s.pc ∧ t.firstError = s.firstError.or (some e)

/-- No error has been returned by any `advance` since reset (93 U4). -/
abbrev Safe (s : State) : Prop := s.firstError = none

/-- The state in which the one instruction of this step is fetched, decoded and executed: the host's turn taken, its
random byte supplied, and the timer phase done (R64 phase 1, R149). -/
def State.prepared (s : State) : State := { s.beginTurn with rnd := s.hostTurn.rnd }.timerPhase s.hostTurn.elapsed

/-- The step fetches, decodes and executes `i` (R69, R70): the two bytes it fetches once the host's operations are done
decode to `i`. -/
def State.Executes (s : State) (i : Instr) : Prop :=
  ∃ b0 b1, s.beginTurn.fetch = .ok (b0, b1) ∧ decode b0 b1 = .ok i

/-- R121 to R124, whole: when an instruction raises an error, and which. The address reported by a block access is the
first one above `0x0FFF`: `I` itself where that is above, else `0x1000`. -/
def ErrorCause : Instr → State → EngineError → Prop
  | .sys nnn, _, e => e = .unsupportedExternalCall nnn
  | .ret, s, e => s.stack = [] ∧ e = .noReturnAddress
  | .ldB _, s, e => 0x0FFF < s.dataAddr 2 ∧ e = .outOfBounds (max s.i.toNat 0x1000)
  | .ldIVx x, s, e => 0x0FFF < s.dataAddr x.toNat ∧ e = .outOfBounds (max s.i.toNat 0x1000)
  | .ldVxI x, s, e => 0x0FFF < s.dataAddr x.toNat ∧ e = .outOfBounds (max s.i.toNat 0x1000)
  | .drw _ _ n, s, e => n ≠ 0 ∧ 0x0FFF < s.dataAddr (n.toNat - 1) ∧ e = .outOfBounds (max s.i.toNat 0x1000)
  | .skp x, s, e | .sknp x, s, e => 15 < (s.reg x).toNat ∧ e = .outOfBounds (s.reg x).toNat
  | .cls, _, _ | .jp _, _, _ | .call _, _, _ | .seImm _ _, _, _ | .sneImm _ _, _, _ | .seReg _ _, _, _
  | .ldImm _ _, _, _ | .addImm _ _, _, _ | .ldReg _ _, _, _ | .or _ _, _, _ | .and _ _, _, _ | .xor _ _, _, _
  | .addReg _ _, _, _ | .sub _ _, _, _ | .shr _ _, _, _ | .subn _ _, _, _ | .shl _ _, _, _ | .sneReg _ _, _, _
  | .ldI _, _, _ | .jpV0 _, _, _ | .rnd _ _, _, _ | .ldVxDt _, _, _ | .ldVxK _, _, _ | .ldDtVx _, _, _
  | .ldStVx _, _, _ | .addI _, _, _ | .ldF _, _, _ => False

/-! ## Frames -/

/-- The pieces of state a frame speaks of, all but `pc` and `result`. -/
inductive Part where
  | regs | index | stack | dt | st | acc | mem | display | key | errors | host
  deriving DecidableEq, Repr

/-- A piece of state is the same before and after: memory byte by byte, the display pixel by pixel. -/
def Same : Part → State → State → Prop
  | .regs, s, t => ∀ x, t.reg x = s.reg x
  | .index, s, t => t.i = s.i
  | .stack, s, t => t.stack = s.stack
  | .dt, s, t => t.dt = s.dt
  | .st, s, t => t.st = s.st
  | .acc, s, t => t.acc = s.acc
  | .mem, s, t => ∀ a, t.mem.read a = s.mem.read a
  | .display, s, t => ∀ col row, t.display.pixel col row = s.display.pixel col row
  | .key, s, t => t.key = s.key
  | .errors, s, t => t.firstError = s.firstError
  | .host, s, t => t.rnd = s.rnd ∧ t.script = s.script ∧ t.calls = s.calls

/-- Every piece of state but those listed (and `pc`, `result`) is the same before and after. -/
def KeptExcept (changed : List Part) (s t : State) : Prop := ∀ p, p ∉ changed → Same p s t

/-- Every register but those of `P` is the same before and after. -/
def RegsKeptExcept (P : Nibble → Prop) (s t : State) : Prop := ∀ x, ¬ P x → t.reg x = s.reg x

/-- Every byte of memory but those at an address of `P` is the same before and after. -/
def MemKeptExcept (P : Nat → Prop) (s t : State) : Prop := ∀ a, ¬ P a → t.mem.read a = s.mem.read a

/-- R11, R12, R100, R101: the registers an instruction may write: its destination, the flag register of the seven
flag-setting instructions, and the block of LD_VX_I. -/
def writesReg : Instr → Nibble → Bool
  | .ldImm x _, r | .addImm x _, r | .ldReg x _, r | .or x _, r | .and x _, r | .xor x _, r | .rnd x _, r
  | .ldVxDt x, r | .ldVxK x, r => r == x
  | .addReg x _, r | .sub x _, r | .shr x _, r | .subn x _, r | .shl x _, r => r == x || r == flagReg
  | .addI _, r | .drw _ _ _, r => r == flagReg
  | .ldVxI x, r => decide (r.toNat ≤ x.toNat)
  | .cls, _ | .ret, _ | .sys _, _ | .jp _, _ | .call _, _ | .seImm _ _, _ | .sneImm _ _, _ | .seReg _ _, _
  | .sneReg _ _, _ | .ldI _, _ | .jpV0 _, _ | .skp _, _ | .sknp _, _ | .ldDtVx _, _ | .ldStVx _, _ | .ldF _, _
  | .ldB _, _ | .ldIVx _, _ => false

/-- R20, R102: how many bytes an instruction may store, from `I` on. -/
def storeCount : Instr → Nat
  | .ldB _ => 3
  | .ldIVx x => x.toNat + 1
  | .cls | .ret | .sys _ | .jp _ | .call _ | .seImm _ _ | .sneImm _ _ | .seReg _ _ | .ldImm _ _ | .addImm _ _
  | .ldReg _ _ | .or _ _ | .and _ _ | .xor _ _ | .addReg _ _ | .sub _ _ | .shr _ _ | .subn _ _ | .shl _ _
  | .sneReg _ _ | .ldI _ | .jpV0 _ | .rnd _ _ | .drw _ _ _ | .skp _ | .sknp _ | .ldVxDt _ | .ldVxK _ | .ldDtVx _
  | .ldStVx _ | .addI _ | .ldF _ | .ldVxI _ => 0

/-- R102: the bytes `byteAt 0`, `byteAt 1`, … (`count` of them) stand at `I`, `I + 1`, … in `t`, as far as those
addresses lie in memory, and no other byte differs from `s`. -/
def BlockStored (count : Nat) (byteAt : Nat → Byte) (s t : State) : Prop :=
  (∀ k, k < count → s.dataAddr k ≤ 0x0FFF → t.mem.read (s.dataAddr k) = byteAt k) ∧
  MemKeptExcept (fun a => ∃ k, k < count ∧ a = s.dataAddr k ∧ a ≤ 0x0FFF) s t

/-- The `k`-th of the three decimal digits of a byte: hundreds, tens, ones (R106). -/
def bcdDigit (v : Byte) (k : Nat) : Byte := (bcdDigits v).getD k 0

/-! ## Sprites -/

/-- R111: `(col, row)` is the pixel of the sprite's row `r` and column `c`, drawn at `(vx, vy)`: the sums modulo 64 and
modulo 32. -/
def SpritePixel (vx vy : Byte) (r c : Nat) (col : Fin 64) (row : Fin 32) : Prop :=
  col.val = (vx.toNat + c) % 64 ∧ row.val = (vy.toNat + r) % 32

/-- R110: the sprite at `I` in column `c` of row `r`: bit `7 - c` of the byte at `I + r`. -/
def State.spriteBits (s : State) (r c : Nat) : Bool := (s.mem.read (s.i.toNat + r)).getLsbD (7 - c)

/-- R110, R111: the display of `t` is that of `s` with the first `rows` rows of the sprite at `I`, drawn at `(vx, vy)`:
a covered pixel is exclusive-ored with its sprite bit, and every other pixel is as it was. -/
def SpriteDrawn (rows : Nat) (vx vy : Byte) (s t : State) : Prop :=
  (∀ r c col row, r < rows → c < 8 → SpritePixel vx vy r c col row →
    t.display.pixel col row = (s.display.pixel col row ^^ s.spriteBits r c)) ∧
  ∀ col row, (∀ r c, r < rows → c < 8 → ¬ SpritePixel vx vy r c col row) →
    t.display.pixel col row = s.display.pixel col row

/-- R112: some lit pixel lies under a 1 bit of the sprite's first `rows` rows. -/
def SpriteHits (rows : Nat) (vx vy : Byte) (s : State) : Prop :=
  ∃ r c col row, r < rows ∧ c < 8 ∧ SpritePixel vx vy r c col row ∧ s.spriteBits r c = true ∧
    s.display.pixel col row = true

/-- R110: the sprite has a lit bit in its first `rows` rows. -/
def SpriteHasLitBit (rows : Nat) (s : State) : Prop := ∃ r c, r < rows ∧ c < 8 ∧ s.spriteBits r c = true

/-! ## The invariant -/

/-- What every step keeps: memory is in its canonical form and inside `0x000 .. 0xFFF`, `pc` is at most `0x10FE` and
every return address at most `0x1000` (R15, R16), and a returned error is on record (93 U4). -/
abbrev MachineInv (s : State) : Prop :=
  s.mem.wf ∧ s.pc.toNat ≤ 0x10FE ∧ (∀ w ∈ s.stack, w.toNat ≤ 0x1000) ∧ (s.result = .ok ∨ s.firstError.isSome = true)

end Sys2Proof.Machine
end

