-- ==== Sys2Proof/Certificates/Slice0/Obligations.lean ====
section
/-! DEFINITION. The statements for the provers. Each docstring names the rule of spec/ it formalises; where a clause
rests on a decision the spec marks as its own, or on a choice of the model, it says so. -/

open Sys2Proof Sys2Proof.Machine

/-! ## Reset -/

/-- 10_state section 10 (R28): every piece of state right after reset. `V`, memory, the display and `pc` are the
source's; `I`, `stack`, `DT`, `ST`, `acc` and `key` are the spec's decision D4 (log entry 6); the font bytes and their
base are the parameters of D5 (log entry 7), named here, not given. -/
def Obligations.ResetLeavesEveryPieceAtItsValue : Prop :=
  (∀ x, State.reset.reg x = 0) ∧ State.reset.i = 0 ∧ State.reset.pc = 0x0200 ∧ State.reset.stack = [] ∧
  State.reset.dt = 0 ∧ State.reset.st = 0 ∧ State.reset.acc = 0 ∧
  (∀ a, a < 4096 → State.reset.mem.read a =
    if Config.fontBase ≤ a ∧ a < Config.fontBase + 80 then Config.font.getD (a - Config.fontBase) 0 else 0) ∧
  (∀ col row, State.reset.display.pixel col row = false) ∧ ∀ k, State.reset.keyDown k = false

/-- 70_reset section 1 (the derived sentence of R141; the payload is decision D18, log entry 25): with no program loaded
the first step reports `UnsupportedExternalCall(0x000)` and `pc` stays, whatever else the host's turn does. -/
def Obligations.EmptyMachineReportsUnsupportedCall : Prop :=
  ∀ turn : HostTurn, (∀ p, HostOp.load p ∉ turn.ops) → ∃ t, step { State.reset with script := [turn] } = .next t ∧
    t.result = .error (.unsupportedExternalCall 0) ∧ t.pc = 0x0200

/-! ## Encoding -/

/-- 30_encoding section 2: words of the spec's own vector table (95 section 2.1), a few of each format, with the
instruction each stands for; and three words that are not in the table. -/
def Obligations.SampleWordsDecodeAsTheTableSays : Prop :=
  decodeWord 0x00E0 = .ok .cls ∧ decodeWord 0x00EE = .ok .ret ∧ decodeWord 0x00E1 = .ok (.sys 0x0E1) ∧
  decodeWord 0x2ABC = .ok (.call 0xABC) ∧ decodeWord 0x3A42 = .ok (.seImm 10 0x42) ∧
  decodeWord 0x5AB0 = .ok (.seReg 10 11) ∧ decodeWord 0x6005 = .ok (.ldImm 0 0x05) ∧
  decodeWord 0x8014 = .ok (.addReg 0 1) ∧ decodeWord 0x812E = .ok (.shl 1 2) ∧
  decodeWord 0xD12F = .ok (.drw 1 2 15) ∧ decodeWord 0xEFA1 = .ok (.sknp 15) ∧ decodeWord 0xFF65 = .ok (.ldVxI 15) ∧
  decodeWord 0x5AB1 = .error (.invalidInstruction 5 0xA 0xB 1) ∧
  decodeWord 0x812D = .error (.invalidInstruction 8 1 2 0xD) ∧
  decodeWord 0xF085 = .error (.invalidInstruction 0xF 0 8 5)

/-- 30_encoding section 4 (R59, derived there): decoding the word of any well-formed instruction gives it back, every
operand at every value. -/
def Obligations.EveryWellFormedInstructionDecodesFromItsWord : Prop :=
  ∀ i, WellFormed i → decodeWord (encode i) = .ok i

/-- 30_encoding section 4 (R59, derived there): an instruction decoded from a word is well formed and encodes to that
word, so no bit of a valid word is dropped and decoding is injective on valid words. -/
def Obligations.EveryValidWordIsTheWordOfItsInstruction : Prop :=
  ∀ w i, decodeWord w = .ok i → WellFormed i ∧ encode i = w

/-- 30_encoding section 3 (R55, R56): the words that decode to nothing are exactly the five classes of R55, and each
reports its own four nibbles. -/
def Obligations.InvalidWordsAreExactlyTheFiveClasses : Prop :=
  ∀ n3 n2 n1 n0 : Nibble,
    (decodeWord (n3 ++ n2 ++ n1 ++ n0) = .error (.invalidInstruction n3 n2 n1 n0) ↔
      (n3 = 5 ∧ n0 ≠ 0) ∨ (n3 = 8 ∧ n0 ∈ [8, 9, 0xA, 0xB, 0xC, 0xD, 0xF]) ∨ (n3 = 9 ∧ n0 ≠ 0) ∨
      (n3 = 0xE ∧ fieldKk n1 n0 ∉ [0x9E, 0xA1]) ∨
      (n3 = 0xF ∧ fieldKk n1 n0 ∉ [0x07, 0x0A, 0x15, 0x18, 0x1E, 0x29, 0x33, 0x55, 0x65])) ∧
    ∀ e, decodeWord (n3 ++ n2 ++ n1 ++ n0) = .error e → e = .invalidInstruction n3 n2 n1 n0

/-- 30_encoding section 2 (R52): which words of `0x0000 .. 0x0FFF` are CLS, RET and SYS, what `0x0000` does when
executed, and that two rows of the opcode map share a word only where one is SYS and the other CLS or RET. That these
words decode, to SYS, and fail only when executed is decision D29 (log entry 24); the pattern `00EE` of RET is general
knowledge (log entry 27). -/
def Obligations.OnlyClsAndRetAreTakenOutOfTheSysFamily : Prop :=
  (∀ nnn : Addr, decodeWord (0x0#4 ++ nnn) =
    .ok (if nnn = 0x0E0 then .cls else if nnn = 0x0EE then .ret else .sys nnn)) ∧
  (∀ s, ∃ info t, RaisesError (.sys 0x000) s (.unsupportedExternalCall info) t) ∧
  ∀ j k w, j < 35 → k < 35 → j < k →
    matchesRow w (opcodeMap.getD j (0, 0)) = true → matchesRow w (opcodeMap.getD k (0, 0)) = true →
    k = 2 ∧ (j = 0 ∧ w = 0x00E0 ∨ j = 1 ∧ w = 0x00EE)

/-! ## The step -/

/-- 40_cycle_engine sections 1, 3 to 5 (R64, R71), 70_reset section 3 (R149): the host does the operations of its turn
(`beginTurn`; log entry 3); then a step whose fetched bytes decode to `i` is `exec i` on the prepared state. What
preparing does to the state the operations left: the timer phase of R66, the random byte supplied, nothing else; and a
turn without operations leaves all but the turn taken from the script. -/
def Obligations.StepRunsTheDecodedInstruction : Prop :=
  (∀ (s : State) i, s.beginTurn.pc.toNat ≤ 0x0FFE →
    decode (s.beginTurn.mem.read s.beginTurn.pc.toNat) (s.beginTurn.mem.read (s.beginTurn.pc.toNat + 1)) = .ok i →
    step s = exec i s.prepared) ∧
  (∀ s : State, s.prepared.rnd = s.hostTurn.rnd ∧ s.prepared.pc = s.beginTurn.pc ∧ s.prepared.result = s.result ∧
    s.prepared.firstError = s.firstError ∧ s.prepared.script = s.script.tail ∧ s.prepared.calls = s.calls + 1 ∧
    s.prepared.dt = (s.beginTurn.timerPhase s.hostTurn.elapsed).dt ∧
    s.prepared.st = (s.beginTurn.timerPhase s.hostTurn.elapsed).st ∧
    s.prepared.acc = (s.beginTurn.timerPhase s.hostTurn.elapsed).acc ∧
    KeptExcept [.dt, .st, .acc, .host] s.beginTurn s.prepared) ∧
  (∀ s : State, s.beginTurn =
    { s with script := s.script.tail, calls := s.calls + 1 }.performAll s.hostTurn.ops) ∧
  ∀ s : State, s.hostTurn.ops = [] → s.beginTurn.pc = s.pc ∧ KeptExcept [.host] s s.beginTurn

/-- The model's own placing of a word (log entry 29): the next step runs the instruction the decoder reads from it,
wherever `pc` stood. The placing moves `pc` to `0x200` where it was not fetchable, and leaves it otherwise; the host's
next turn keeps its time and its random byte but does no other operation; and nothing but that and the two bytes at the
resulting `pc` has changed. -/
def Obligations.PlacedWordIsTheNextInstructionRun : Prop :=
  ∀ (s : State) w i, decodeTableWord 16 w = some i →
    step (s.withFetchWord 16 w) = exec i (s.withFetchWord 16 w).prepared ∧
    (s.withFetchWord 16 w).pc = (if s.pc.toNat ≤ 0x0FFE then s.pc else 0x0200) ∧
    (s.withFetchWord 16 w).result = s.result ∧ KeptExcept [.mem, .host] s (s.withFetchWord 16 w) ∧
    MemKeptExcept (fun a => a = (s.withFetchWord 16 w).pc.toNat ∨ a = (s.withFetchWord 16 w).pc.toNat + 1) s
      (s.withFetchWord 16 w) ∧
    (s.withFetchWord 16 w).rnd = s.rnd ∧ (s.withFetchWord 16 w).calls = s.calls ∧
    (s.withFetchWord 16 w).script = ⟨[], s.hostTurn.elapsed, s.hostTurn.rnd⟩ :: s.script.tail

/-- 40_cycle_engine section 3 (R69; the address reported is decision D18, log entry 25): what the fetch reads and when
it fails, and that a failed fetch leaves `pc` and everything else as the host's call found it (`beginTurn`) but the
timer phase's results and the model's own fields (log entries 1 to 4). -/
def Obligations.FetchReadsTwoBytesOrEndsTheAdvance : Prop :=
  (∀ s : State, s.fetch =
    if 4095 < s.pc.toNat then .error (.outOfBounds s.pc.toNat)
    else if 4095 < s.pc.toNat + 1 then .error (.outOfBounds (s.pc.toNat + 1))
    else .ok (s.mem.read s.pc.toNat, s.mem.read (s.pc.toNat + 1))) ∧
  (∀ b : Byte, b = hiNibble b ++ loNibble b) ∧
  ∀ (s : State) e, s.beginTurn.fetch = .error e →
    ∃ t, step s = .next t ∧ t.result = .error e ∧ t.pc = s.beginTurn.pc ∧ KeptExcept [.errors] s.prepared t ∧
      KeptExcept [.dt, .st, .acc, .host, .errors] s.beginTurn t

/-- 40_cycle_engine R70, whole: the word decoded is the four nibbles fetched, in order; where it decodes the step
executes the instruction, and a word that decodes to nothing ends the `advance` with its four nibbles, no state
changed since the host's call (`beginTurn`) but the timer phase's (and the model's own fields, log entries 1 to 4). -/
def Obligations.TheFetchedWordIsDecodedOrEndsTheAdvance : Prop :=
  (∀ (s : State) b0 b1 i, s.beginTurn.fetch = .ok (b0, b1) →
    decodeWord (hiNibble b0 ++ loNibble b0 ++ hiNibble b1 ++ loNibble b1) = .ok i → step s = exec i s.prepared) ∧
  ∀ (s : State) b0 b1 e, s.beginTurn.fetch = .ok (b0, b1) →
    decodeWord (hiNibble b0 ++ loNibble b0 ++ hiNibble b1 ++ loNibble b1) = .error e →
    e = .invalidInstruction (hiNibble b0) (loNibble b0) (hiNibble b1) (loNibble b1) ∧
    ∃ t, step s = .next t ∧
      t.result = .error (.invalidInstruction (hiNibble b0) (loNibble b0) (hiNibble b1) (loNibble b1)) ∧
      t.pc = s.beginTurn.pc ∧ KeptExcept [.errors] s.prepared t ∧
      KeptExcept [.dt, .st, .acc, .host, .errors] s.beginTurn t

/-- 40_cycle_engine section 6 (R75): from every state a step answers a next state; there is no halted state. That an
error is a next state is the model's reading of R75 and D19 (log entry 1). -/
def Obligations.EveryStepAnswersANextState : Prop := ∀ s, ∃ t, step s = .next t

/-! ## Timers and the latch -/

/-- 40_cycle_engine section 2 (R65, R66; nanoseconds and the unbounded accumulator are decisions D1 and D3, log entry
9): the boundary test and the decrement after `elapsed` is added. That `acc` restarts from 0 with the excess dropped,
and that however large the sum each timer drops by one only, is decision D2 at its default (R67,
TIMER_CARRY_REMAINDER false; log entry 10). -/
def Obligations.TimersCountDownAtTheSixtiethOfASecond : Prop :=
  (∀ (s : State) e, 1000000000 ≤ 60 * (s.acc + e) →
    (s.timerPhase e).dt = (if s.dt = 0 then 0 else s.dt - 1) ∧
    (s.timerPhase e).st = (if s.st = 0 then 0 else s.st - 1) ∧ (s.timerPhase e).acc = 0) ∧
  (∀ (s : State) e, 60 * (s.acc + e) < 1000000000 →
    (s.timerPhase e).dt = s.dt ∧ (s.timerPhase e).st = s.st ∧ (s.timerPhase e).acc = s.acc + e) ∧
  (∀ a, 1000000000 ≤ 60 * a ↔ 16666667 ≤ a) ∧
  ∀ (s : State) e, (s.timerPhase e).pc = s.pc ∧ (s.timerPhase e).result = s.result ∧
    KeptExcept [.dt, .st, .acc] s (s.timerPhase e)

/-- 40_cycle_engine section 2 (R67, decision D2, log entry 10; R68, decision D28, log entry 22): every step commits its
timer phase, which starts from what the host's operations left (`beginTurn`). `acc` after a step is what the phase left,
whatever the instruction did. `DT` is too, and at most one lower than before the phase, where the step reports an error
and where it executes no LD_DT_VX (the key wait's stall among these); LD_DT_VX leaves its register there, not lowered.
The same holds of `ST` and LD_ST_VX. -/
def Obligations.EveryStepCommitsItsTimerPhase : Prop :=
  ∀ s t, step s = .next t →
    t.acc = (if 1000000000 ≤ 60 * (s.beginTurn.acc + s.hostTurn.elapsed) then 0
      else s.beginTurn.acc + s.hostTurn.elapsed) ∧
    (t.result ≠ .ok → t.dt = s.prepared.dt ∧ t.st = s.prepared.st ∧ s.beginTurn.dt.toNat ≤ t.dt.toNat + 1 ∧
      s.beginTurn.st.toNat ≤ t.st.toNat + 1) ∧
    ((∀ x, ¬ s.Executes (.ldDtVx x)) → t.dt = s.prepared.dt ∧ s.beginTurn.dt.toNat ≤ t.dt.toNat + 1) ∧
    ((∀ x, ¬ s.Executes (.ldStVx x)) → t.st = s.prepared.st ∧ s.beginTurn.st.toNat ≤ t.st.toNat + 1) ∧
    (∀ x, s.Executes (.ldDtVx x) → t.dt = s.beginTurn.reg x) ∧ ∀ x, s.Executes (.ldStVx x) → t.st = s.beginTurn.reg x

/-- 10_state section 5 (R17 to R19): an instruction other than LD_DT_VX leaves `DT`, one other than LD_ST_VX leaves
`ST`, and none writes `acc`. -/
def Obligations.OnlyTheirOwnInstructionsWriteTheTimers : Prop :=
  ∀ i s t, exec i s = .next t →
    t.acc = s.acc ∧ ((∀ x, i ≠ .ldDtVx x) → t.dt = s.dt) ∧ ((∀ x, i ≠ .ldStVx x) → t.st = s.st)

/-- 10_state section 8, 46_timer_input section 2 (R25, R119, decision D30, log entry 23) and 70_reset section 3 (R146):
`set_keys` replaces all 16 bits and changes nothing else, no instruction writes the latch, and after a step the latch is
as the host's operations left it. Of those, the last that is a `set_keys` or a `reset` decides: the vector it set, or
every key released (decision D4, log entry 6), whatever comes before it and whatever other operations follow; without
one the latch is as it was. -/
def Obligations.TheLatchIsWrittenOnlyByTheHost : Prop :=
  (∀ (s : State) (keys : Keys), (∀ k : Fin 16, (s.setKeys keys).keyDown k = keys[k]) ∧ (s.setKeys keys).pc = s.pc ∧
    (s.setKeys keys).result = s.result ∧ KeptExcept [.key] s (s.setKeys keys)) ∧
  (∀ i s t, exec i s = .next t → t.key = s.key) ∧
  (∀ s t, step s = .next t → t.key = s.beginTurn.key) ∧
  ∀ (s : State) rest, HostOp.reset ∉ rest → (∀ keys, HostOp.setKeys keys ∉ rest) →
    (s.performAll rest).key = s.key ∧
    (∀ ops keys, (s.performAll (ops ++ .setKeys keys :: rest)).key = keys) ∧
    ∀ ops k, (s.performAll (ops ++ .reset :: rest)).keyDown k = false

/-! ## Frames over the whole instruction set -/

/-- 10_state section 1, 43_alu section 5 (R11, R12, R100, R101, decision D12): no instruction writes a register that is
not its destination, its flag register or in its loaded block. -/
def Obligations.NoInstructionWritesAnyOtherRegister : Prop :=
  ∀ i s t x, exec i s = .next t → writesReg i x = false → t.reg x = s.reg x

/-- 10_state sections 2, 4 and 7 (R13, R16, R24): only LD_I, ADD_I and LD_F write `I`, only CALL and RET the call
stack, only CLS and DRW the display. -/
def Obligations.IndexStackAndDisplayHaveTheirOwnWriters : Prop :=
  ∀ i s t, exec i s = .next t →
    (t.i ≠ s.i → (∃ nnn, i = .ldI nnn) ∨ (∃ x, i = .addI x) ∨ ∃ x, i = .ldF x) ∧
    (t.stack ≠ s.stack → (∃ nnn, i = .call nnn) ∨ i = .ret) ∧
    (t.display ≠ s.display → i = .cls ∨ ∃ x y n, i = .drw x y n)

/-- 10_state section 6, 20_memory section 4 (R20, R35, R38): only LD_B and LD_I_VX change memory, and only at the
addresses from `I` on that they store to, inside memory. -/
def Obligations.OnlyStoresChangeMemoryAndOnlyFromIndexOn : Prop :=
  ∀ i s t, exec i s = .next t →
    MemKeptExcept (fun a => ∃ k, k < storeCount i ∧ a = s.dataAddr k ∧ a ≤ 0x0FFF) s t

/-- 43_alu section 4, 40_cycle_engine section 5 (R98, R71): no instruction but RND reads the random byte: with another
byte supplied it does the same. -/
def Obligations.OnlyRndReadsTheRandomByte : Prop :=
  ∀ i (s : State) b, (∀ x kk, i ≠ .rnd x kk) →
    exec i { s with rnd := b } =
      match exec i s with
      | .next t => .next { t with rnd := b }
      | .fault f => .fault f
      | .refused r => .refused r

/-- 10_state section 5 (R18, R19): no instruction reads the accumulator or, but for LD_ST_VX overwriting it, touches
the sound timer: with other values of the two it does the same. -/
def Obligations.NoInstructionReadsAccumulatorOrSoundTimer : Prop :=
  ∀ i (s : State) a b,
    exec i { s with acc := a, st := b } =
      match exec i s with
      | .next t => .next { t with acc := a, st := if ∃ x, i = .ldStVx x then t.st else b }
      | .fault f => .fault f
      | .refused r => .refused r

/-! ## Errors -/

/-- 60_exceptions section 1 and R127's order (R121 to R124, payloads by decision D18): when an instruction reports an
error, and which: exactly on the causes listed in `ErrorCause`. -/
def Obligations.InstructionsRaiseExactlyTheListedErrors : Prop :=
  ∀ i s t, exec i s = .next t → ∀ e, t.result = .error e ↔ ErrorCause i s e

/-- 60_exceptions section 2 (R125, R126, R128; the partial effects by decision D17, log entry 20): what an error leaves.
`pc`, `I`, the stack, the timers, `acc` and the latch are as before; registers, memory and display too, but for the
partial effects of LD_VX_I, of LD_B and LD_I_VX, and of DRW. -/
def Obligations.AnErrorLeavesEverythingButPartialEffects : Prop :=
  ∀ i s t e, exec i s = .next t → t.result = .error e →
    t.pc = s.pc ∧ KeptExcept [.regs, .mem, .display, .errors] s t ∧
    ((∀ x, i ≠ .ldVxI x) → Same .regs s t) ∧
    ((∀ x, i ≠ .ldB x) → (∀ x, i ≠ .ldIVx x) → Same .mem s t) ∧
    ((∀ x y n, i ≠ .drw x y n) → Same .display s t)

/-- The model's record of errors (93 U4, decision D19; log entry 2): a step never clears the first error, and records
the error it returns where there was none. -/
def Obligations.FirstErrorIsNeverCleared : Prop :=
  ∀ s t, step s = .next t →
    (∀ e, s.firstError = some e → t.firstError = some e) ∧
    (∀ e, s.firstError = none → t.result = .error e → t.firstError = some e) ∧
    (s.firstError = none → t.result = .ok → t.firstError = none)

/-! ## The invariant -/

/-- The invariant of `EveryStepKeepsTheInvariant` holds after reset: memory in its canonical form, `pc` at most `0x10FE`,
no return address above `0x1000`, no error off the record. -/
def Obligations.ResetMeetsTheInvariant : Prop := MachineInv State.reset

/-- 10_state sections 3 and 4 (the derived bounds of R15 and R16), 20_memory section 1, and the model's canonical memory
(log entry 8): from every state that meets the invariant, every step leads to one that meets it. -/
def Obligations.EveryStepKeepsTheInvariant : Prop := ∀ s t, MachineInv s → step s = .next t → MachineInv t

/-! ## Memory -/

/-- 20_memory section 4 (R37 for data reads, R38; the address reported is decision D18, log entry 25): a checked read
gives the byte or the address; a checked write changes its one byte, seen at once by reads and by the fetch, or
nothing. -/
def Obligations.AccessesAreCheckedAndTakeEffectAtOnce : Prop :=
  (∀ (s : State) a, s.memRead a = if 4095 < a then .error (.outOfBounds a) else .ok (s.mem.read a)) ∧
  (∀ (s : State) a b, 4095 < a → s.memWrite a b = .error (.outOfBounds a, s)) ∧
  ∀ (s : State) a b, a ≤ 4095 → ∃ t, s.memWrite a b = .ok t ∧ t.memRead a = .ok b ∧ t.pc = s.pc ∧
    t.result = s.result ∧ KeptExcept [.mem] s t ∧ MemKeptExcept (fun j => j = a) s t ∧
    ∀ b0 b1, t.fetch = .ok (b0, b1) → (t.pc.toNat = a → b0 = b) ∧ (t.pc.toNat + 1 = a → b1 = b)

/-- The model's canonical memory (log entry 8): a write inside memory and a program load keep it, and two canonical
memories that read the same everywhere are the same list. -/
def Obligations.CanonicalMemoryIsKeptAndUnique : Prop :=
  (∀ (m : Memory) a b, m.wf → a < 4096 → (m.write a b).wf) ∧
  (∀ (s : State) bytes t, s.mem.wf → s.load bytes = .next t → t.mem.wf) ∧
  ∀ m n : Memory, m.wf → n.wf → (∀ a, m.read a = n.read a) → m = n

/-- 70_reset section 3 (R145, decision D23; R148) and 93 U1 (log entry 30): `load` copies the bytes to `0x200` on and
changes nothing else, is refused beyond 3584 bytes, and the inspection reads answer the state or the range error. The
address in a range error of memory is decision D18; the index in one of a register is the model's choice (log entry
25). -/
def Obligations.HostLoadAndInspectionDoWhatTheySay : Prop :=
  (∀ (s : State) (bytes : List Byte), bytes.length ≤ 3584 → ∃ t, s.load bytes = .next t ∧ t.pc = s.pc ∧ t.result = s.result ∧
    KeptExcept [.mem] s t ∧ (∀ j b, bytes[j]? = some b → t.mem.read (0x200 + j) = b) ∧
    MemKeptExcept (fun a => 0x200 ≤ a ∧ a < 0x200 + bytes.length) s t) ∧
  (∀ (s : State) (bytes : List Byte), 3584 < bytes.length → s.load bytes = .refused .loadTooLong) ∧
  (∀ (s : State) (x : Nibble), s.inspectReg x.toNat = .ok (s.reg x)) ∧
  (∀ (s : State) n, 15 < n → s.inspectReg n = .error (.outOfBounds n)) ∧
  (∀ (s : State) a, a ≤ 4095 → s.inspectMem a = .ok (s.mem.read a)) ∧
  (∀ (s : State) a, 4095 < a → s.inspectMem a = .error (.outOfBounds a)) ∧
  ∀ s : State, s.inspectPc = s.pc ∧ s.inspectIndex = s.i ∧ s.inspectTimers = (s.dt, s.st) ∧ s.screen = s.display

/-- 70_reset sections 1 and 3 (R140, R144 to R149; decision D23, log entry 30): what each operation of the host does to
the state. `reset` on any state gives every piece of the spec's state its value after reset, the model's own fields kept
(log entries 2 and 30); `load` and `set_keys` are the operations of the two statements about them; `display` and the
inspection reads change nothing; and the operations of a turn are done one after the other, in any order the host
chooses. -/
def Obligations.TheHostMayDoAnyOperationBetweenCalls : Prop :=
  (∀ s : State, (s.perform .reset).pc = 0x0200 ∧ (s.perform .reset).result = s.result ∧
    KeptExcept [.errors, .host] State.reset (s.perform .reset) ∧ (s.perform .reset).firstError = s.firstError ∧
    Same .host s (s.perform .reset)) ∧
  (∀ (s : State) (p : Program), p.bytes.length ≤ 3584 ∧ s.load p.bytes = .next (s.perform (.load p))) ∧
  (∀ (s : State) keys, s.perform (.setKeys keys) = s.setKeys keys) ∧
  (∀ s : State, s.perform .display = s ∧ s.perform .inspect = s) ∧
  (∀ s : State, s.performAll [] = s) ∧
  ∀ (s : State) op ops, s.performAll (op :: ops) = (s.perform op).performAll ops

/-! ## Control transfer -/

/-- 41_flow (SYS; R77, its payload by decision D18): every SYS raises `UnsupportedExternalCall(nnn)`, and nothing but
the record of errors changes. -/
def Obligations.SysAlwaysRaisesUnsupportedExternalCall : Prop :=
  ∀ nnn s, ∃ t, RaisesError (.sys nnn) s (.unsupportedExternalCall nnn) t ∧ KeptExcept [.errors] s t

/-- 41_flow (RET; R78): the most recently pushed entry is removed and becomes `pc`. -/
def Obligations.RetTakesTheMostRecentReturnAddress : Prop :=
  ∀ (s : State) top rest, s.stack = top :: rest →
    ∃ t, Completes .ret s t ∧ t.pc = top ∧ t.stack = rest ∧ KeptExcept [.stack] s t

/-- 60_exceptions R123, whole: RET on the empty call stack raises `NoReturnAddress`, and `pc` stays at the RET. -/
def Obligations.RetOnTheEmptyStackRaisesNoReturnAddress : Prop :=
  ∀ s : State, s.stack = [] → ∃ t, RaisesError .ret s .noReturnAddress t ∧ KeptExcept [.errors] s t

/-- 41_flow (JP; R79, the address reported by the failing fetch is decision D18, log entry 25): the word, the effect,
and the corner cases of the next fetch. -/
def Obligations.JpReplacesThePc : Prop :=
  (∀ nnn : Addr, decodeWord (0x1#4 ++ nnn) = .ok (.jp nnn)) ∧
  ∀ nnn s, ∃ t, Completes (.jp nnn) s t ∧ t.pc.toNat = nnn.toNat ∧ KeptExcept [] s t ∧
    (nnn = 0xFFF → t.fetch = .error (.outOfBounds 0x1000)) ∧
    (nnn ≠ 0xFFF → t.fetch = .ok (s.mem.read nnn.toNat, s.mem.read (nnn.toNat + 1)))

/-- 41_flow (CALL; R80, what is pushed by decision D7, the unbounded stack by D6): the address of the next instruction
is pushed and `pc` becomes the target. -/
def Obligations.CallPushesTheNextAddressAndJumps : Prop :=
  ∀ nnn s, ∃ t, Completes (.call nnn) s t ∧ t.pc.toNat = nnn.toNat ∧ t.stack = (s.pc + 2) :: s.stack ∧
    KeptExcept [.stack] s t

/-- 41_flow (R78, R80 with decision D7): a RET executed when the call stack is as the CALL left it continues after the
CALL and restores the stack. -/
def Obligations.RetReturnsAfterTheMatchingCall : Prop :=
  ∀ nnn s, ∃ t, Completes (.call nnn) s t ∧
    ∀ u, u.stack = t.stack → ∃ w, Completes .ret u w ∧ w.pc = s.pc + 2 ∧ w.stack = s.stack

/-- 41_flow (JP_V0; R81, unreduced by decision D9): the target is `nnn + V[0]`, at most `0x10FE`. -/
def Obligations.JpV0AddsRegisterZero : Prop :=
  ∀ nnn s, ∃ t, Completes (.jpV0 nnn) s t ∧ t.pc.toNat = nnn.toNat + (s.reg 0).toNat ∧ KeptExcept [] s t

/-! ## Skips -/

/-- 42_skip (SE_IMM, SNE_IMM, SE_REG, SNE_REG; R82 to R85, whose patterns and conditions are general knowledge, 93 G1 and
G2, log entry 27): the words of the four skips, the `pc` each leaves when its comparison holds and when it does not,
nothing else changed, and the fetch after a skip taken at `0x0FFE`. -/
def Obligations.SkipsPassOverOneInstructionWhenTaken : Prop :=
  (∀ (x : Nibble) (kk : Byte), decodeWord (0x3#4 ++ x ++ kk) = .ok (.seImm x kk) ∧
    decodeWord (0x4#4 ++ x ++ kk) = .ok (.sneImm x kk)) ∧
  (∀ x y n0 : Nibble,
    decodeWord (0x5#4 ++ x ++ y ++ n0) =
      (if n0 = 0 then .ok (.seReg x y) else .error (.invalidInstruction 5 x y n0)) ∧
    decodeWord (0x9#4 ++ x ++ y ++ n0) =
      (if n0 = 0 then .ok (.sneReg x y) else .error (.invalidInstruction 9 x y n0))) ∧
  (∀ x kk s, ∃ t, Completes (.seImm x kk) s t ∧ KeptExcept [] s t ∧
    t.pc = if s.reg x = kk then s.pc + 4 else s.pc + 2) ∧
  (∀ x kk s, ∃ t, Completes (.sneImm x kk) s t ∧ KeptExcept [] s t ∧
    t.pc = if s.reg x ≠ kk then s.pc + 4 else s.pc + 2) ∧
  (∀ x y s, ∃ t, Completes (.seReg x y) s t ∧ KeptExcept [] s t ∧
    t.pc = if s.reg x = s.reg y then s.pc + 4 else s.pc + 2) ∧
  (∀ x y s, ∃ t, Completes (.sneReg x y) s t ∧ KeptExcept [] s t ∧
    t.pc = if s.reg x ≠ s.reg y then s.pc + 4 else s.pc + 2) ∧
  ∀ t : State, t.pc = (0x0FFE : Word) + 4 → ∃ info, t.fetch = .error (.outOfBounds info)

/-! ## Register and ALU instructions -/

/-- 43_alu R87, whole: the word and the effect of LD_IMM; `VF` changes only if `x = 15`. -/
def Obligations.LdImmLoadsTheConstant : Prop :=
  (∀ (x : Nibble) (kk : Byte), decodeWord (0x6#4 ++ x ++ kk) = .ok (.ldImm x kk)) ∧
  ∀ x kk s, ∃ t, Completes (.ldImm x kk) s t ∧ t.reg x = kk ∧ RegsKeptExcept (fun r => r = x) s t ∧
    KeptExcept [.regs] s t ∧ t.pc = s.pc + 2

/-- 43_alu sections 2 and 3 (ADD_IMM, LD_REG, OR, AND, XOR; R88 to R92): the result in `V[x]`, and no flag: every other
register, `VF` among them, is as before (the last by decision D12, log entry 28). -/
def Obligations.PlainAluInstructionsWriteOnlyTheirDestination : Prop :=
  (∀ x kk s, ∃ t, Completes (.addImm x kk) s t ∧ (t.reg x).toNat = ((s.reg x).toNat + kk.toNat) % 256 ∧
    RegsKeptExcept (fun r => r = x) s t ∧ KeptExcept [.regs] s t ∧ t.pc = s.pc + 2) ∧
  (∀ x y s, ∃ t, Completes (.ldReg x y) s t ∧ t.reg x = s.reg y ∧
    RegsKeptExcept (fun r => r = x) s t ∧ KeptExcept [.regs] s t ∧ t.pc = s.pc + 2) ∧
  (∀ x y s, ∃ t, Completes (.or x y) s t ∧ t.reg x = s.reg x ||| s.reg y ∧
    RegsKeptExcept (fun r => r = x) s t ∧ KeptExcept [.regs] s t ∧ t.pc = s.pc + 2) ∧
  (∀ x y s, ∃ t, Completes (.and x y) s t ∧ t.reg x = s.reg x &&& s.reg y ∧
    RegsKeptExcept (fun r => r = x) s t ∧ KeptExcept [.regs] s t ∧ t.pc = s.pc + 2) ∧
  ∀ x y s, ∃ t, Completes (.xor x y) s t ∧ t.reg x = s.reg x ^^^ s.reg y ∧
    RegsKeptExcept (fun r => r = x) s t ∧ KeptExcept [.regs] s t ∧ t.pc = s.pc + 2

/-- 43_alu section 3 (ADD_REG; R93): the sum modulo 256 in `V[x]` and the carry in `VF`, every other register as before.
Where `x = 15` only the flag is left: decision D10 (log entry 12). -/
def Obligations.AddRegWritesSumThenCarry : Prop :=
  ∀ x y s, ∃ t, Completes (.addReg x y) s t ∧
    (x ≠ 15 → (t.reg x).toNat = ((s.reg x).toNat + (s.reg y).toNat) % 256) ∧
    t.reg 15 = (if 255 < (s.reg x).toNat + (s.reg y).toNat then 1 else 0) ∧
    RegsKeptExcept (fun r => r = x ∨ r = 15) s t ∧ KeptExcept [.regs] s t ∧ t.pc = s.pc + 2

/-- 43_alu section 3 (SUB, SUBN; R94, R96): the difference modulo 256 in `V[x]` and NOT borrow in `VF`. The polarity and
the equal case are decision D11 at its default (log entry 11); `x = 15` is decision D10 (log entry 12). -/
def Obligations.SubtractionsWriteDifferenceThenNotBorrow : Prop :=
  (∀ x y s, ∃ t, Completes (.sub x y) s t ∧
    (x ≠ 15 → (t.reg x).toNat = ((s.reg x).toNat + 256 - (s.reg y).toNat) % 256) ∧
    t.reg 15 = (if (s.reg y).toNat ≤ (s.reg x).toNat then 1 else 0) ∧
    RegsKeptExcept (fun r => r = x ∨ r = 15) s t ∧ KeptExcept [.regs] s t ∧ t.pc = s.pc + 2) ∧
  ∀ x y s, ∃ t, Completes (.subn x y) s t ∧
    (x ≠ 15 → (t.reg x).toNat = ((s.reg y).toNat + 256 - (s.reg x).toNat) % 256) ∧
    t.reg 15 = (if (s.reg x).toNat ≤ (s.reg y).toNat then 1 else 0) ∧
    RegsKeptExcept (fun r => r = x ∨ r = 15) s t ∧ KeptExcept [.regs] s t ∧ t.pc = s.pc + 2

/-- 43_alu section 3 (SHR, SHL; R95, R97): `V[y]` shifted by one into `V[x]` and the bit shifted out in `VF`; `x = 15` is
decision D10 (log entry 12). -/
def Obligations.ShiftsReadTheSecondRegister : Prop :=
  (∀ x y s, ∃ t, Completes (.shr x y) s t ∧ (x ≠ 15 → (t.reg x).toNat = (s.reg y).toNat / 2) ∧
    (t.reg 15).toNat = (s.reg y).toNat % 2 ∧
    RegsKeptExcept (fun r => r = x ∨ r = 15) s t ∧ KeptExcept [.regs] s t ∧ t.pc = s.pc + 2) ∧
  ∀ x y s, ∃ t, Completes (.shl x y) s t ∧ (x ≠ 15 → (t.reg x).toNat = (s.reg y).toNat * 2 % 256) ∧
    (t.reg 15).toNat = (s.reg y).toNat / 128 ∧
    RegsKeptExcept (fun r => r = x ∨ r = 15) s t ∧ KeptExcept [.regs] s t ∧ t.pc = s.pc + 2

/-- 43_alu section 4 (RND; R98, decision D15): `V[x]` gets the random byte masked, for every random byte. -/
def Obligations.RndMasksTheRandomByte : Prop :=
  ∀ x kk s, ∃ t, Completes (.rnd x kk) s t ∧ t.reg x = s.rnd &&& kk ∧ RegsKeptExcept (fun r => r = x) s t ∧
    KeptExcept [.regs] s t ∧ t.pc = s.pc + 2

/-! ## Index register and memory -/

/-- 44_index_memory section 2 (LD_I; R103, the pattern `Annn` from general knowledge, log entry 27): the word and the
effect; the result is at most `0x0FFF`. -/
def Obligations.LdILoadsTheAddressField : Prop :=
  (∀ nnn : Addr, decodeWord (0xA#4 ++ nnn) = .ok (.ldI nnn)) ∧
  ∀ nnn s, ∃ t, Completes (.ldI nnn) s t ∧ t.i.toNat = nnn.toNat ∧ t.i.toNat ≤ 0x0FFF ∧ KeptExcept [.index] s t ∧
    t.pc = s.pc + 2

/-- 44_index_memory section 2 (ADD_I; R104): the sum modulo 65536 in `I`; `VF` says that the whole sum exceeds `0x0FFF`
(decision D13, log entry 17), and with `x = 15` the old `VF` is the addend. -/
def Obligations.AddIAddsAndFlagsTheRange : Prop :=
  ∀ x s, ∃ t, Completes (.addI x) s t ∧ t.i.toNat = (s.i.toNat + (s.reg x).toNat) % 65536 ∧
    t.reg 15 = (if 0x0FFF < s.i.toNat + (s.reg x).toNat then 1 else 0) ∧
    RegsKeptExcept (fun r => r = 15) s t ∧ KeptExcept [.regs, .index] s t ∧ t.pc = s.pc + 2

/-- 44_index_memory section 2 (LD_F; R105): `I` points at glyph `V[x]`, the whole byte used (decision D14, log entry 18;
the base is the parameter of decision D5, log entry 7). -/
def Obligations.LdFPointsAtTheGlyph : Prop :=
  ∀ x s, ∃ t, Completes (.ldF x) s t ∧ t.i.toNat = Config.fontBase + 5 * (s.reg x).toNat ∧ KeptExcept [.index] s t ∧
    t.pc = s.pc + 2

/-- 44_index_memory section 3 (LD_B; R106): the three digits at `I`, `I + 1`, `I + 2`, each 0 to 9 and together the
value, where all three addresses lie in memory. -/
def Obligations.LdBStoresThreeDecimalDigits : Prop :=
  ∀ x (s : State), s.dataAddr 2 ≤ 0x0FFF → ∃ t, Completes (.ldB x) s t ∧
    (t.mem.read (s.dataAddr 0)).toNat = (s.reg x).toNat / 100 ∧
    (t.mem.read (s.dataAddr 1)).toNat = (s.reg x).toNat / 10 % 10 ∧
    (t.mem.read (s.dataAddr 2)).toNat = (s.reg x).toNat % 10 ∧
    MemKeptExcept (fun a => a = s.dataAddr 0 ∨ a = s.dataAddr 1 ∨ a = s.dataAddr 2) s t ∧
    KeptExcept [.mem] s t ∧ t.pc = s.pc + 2

/-- 44_index_memory section 3 (LD_I_VX; R107): `V[0] .. V[x]` at `I .. I + x`, where the last address lies in memory. -/
def Obligations.LdIVxStoresTheRegisterBlock : Prop :=
  ∀ (x : Nibble) (s : State), s.dataAddr x.toNat ≤ 0x0FFF → ∃ t, Completes (.ldIVx x) s t ∧
    (∀ r : Nibble, r.toNat ≤ x.toNat → t.mem.read (s.dataAddr r.toNat) = s.reg r) ∧
    MemKeptExcept (fun a => ∃ k, k ≤ x.toNat ∧ a = s.dataAddr k) s t ∧ KeptExcept [.mem] s t ∧ t.pc = s.pc + 2

/-- 44_index_memory section 4 (LD_VX_I; R108): `V[0] .. V[x]` loaded from `I .. I + x`, where the last address lies in
memory; every other register as before. -/
def Obligations.LdVxILoadsTheRegisterBlock : Prop :=
  ∀ (x : Nibble) (s : State), s.dataAddr x.toNat ≤ 0x0FFF → ∃ t, Completes (.ldVxI x) s t ∧
    (∀ r : Nibble, r.toNat ≤ x.toNat → t.reg r = s.mem.read (s.dataAddr r.toNat)) ∧
    RegsKeptExcept (fun r => r.toNat ≤ x.toNat) s t ∧ KeptExcept [.regs] s t ∧ t.pc = s.pc + 2

/-- 44_index_memory section 1, 60_exceptions section 2 (R102, R128, decision D17, log entry 20): a store that runs off the
end of memory raises `OutOfBounds` at the first address above `0x0FFF`, and exactly the bytes below it are written. -/
def Obligations.StoresOffTheEndKeepTheBytesBelowIt : Prop :=
  (∀ x (s : State), 0x0FFF < s.dataAddr 2 → ∃ t, RaisesError (.ldB x) s (.outOfBounds (max s.i.toNat 0x1000)) t ∧
    BlockStored 3 (bcdDigit (s.reg x)) s t ∧ KeptExcept [.mem, .errors] s t) ∧
  ∀ (x : Nibble) (s : State), 0x0FFF < s.dataAddr x.toNat →
    ∃ t, RaisesError (.ldIVx x) s (.outOfBounds (max s.i.toNat 0x1000)) t ∧
      BlockStored (x.toNat + 1) (fun k => s.reg (blockReg k)) s t ∧ KeptExcept [.mem, .errors] s t

/-- 44_index_memory section 1, 60_exceptions section 2 (R102, R128, decision D17, log entry 20): a load that runs off the
end of memory raises `OutOfBounds` at the first address above `0x0FFF`; the registers below it are loaded, the others
keep their values. -/
def Obligations.LoadsOffTheEndKeepTheRegistersAboveIt : Prop :=
  ∀ (x : Nibble) (s : State), 0x0FFF < s.dataAddr x.toNat →
    ∃ t, RaisesError (.ldVxI x) s (.outOfBounds (max s.i.toNat 0x1000)) t ∧
      (∀ r : Nibble, r.toNat ≤ x.toNat → s.dataAddr r.toNat ≤ 0x0FFF → t.reg r = s.mem.read (s.dataAddr r.toNat)) ∧
      RegsKeptExcept (fun r => r.toNat ≤ x.toNat ∧ s.dataAddr r.toNat ≤ 0x0FFF) s t ∧
      KeptExcept [.regs, .errors] s t

/-- 44_index_memory sections 3 and 4 (R107, R108): a block stored and later loaded again, with `I` and memory as the
store left them, gives the registers their stored values back, whatever they held meanwhile. -/
def Obligations.ABlockStoredAndLoadedComesBack : Prop :=
  ∀ (x : Nibble) (s : State), s.dataAddr x.toNat ≤ 0x0FFF → ∃ t, Completes (.ldIVx x) s t ∧
    ∀ u, Same .index t u → Same .mem t u →
      ∃ w, Completes (.ldVxI x) u w ∧ ∀ r : Nibble, r.toNat ≤ x.toNat → w.reg r = s.reg r

/-! ## Display -/

/-- 45_display R109, whole: the word and the effect of CLS. -/
def Obligations.ClsDarkensEveryPixel : Prop :=
  decodeWord 0x00E0 = .ok .cls ∧
  ∀ s, ∃ t, Completes .cls s t ∧ (∀ col row, t.display.pixel col row = false) ∧ KeptExcept [.display] s t ∧
    t.pc = s.pc + 2

/-- 45_display (DRW; R110 to R112): where the sprite's rows lie in memory, each pixel under the sprite is exclusive-ored
with its bit, every other pixel is as before, and `VF` is 1 exactly when a lit pixel lay under a 1 bit. Bit order, the
time of the `VF` write and `n = 0` are decision D16 (log entry 19). -/
def Obligations.DrwDrawsTheSpriteAndReportsCollision : Prop :=
  ∀ x y (n : Nibble) (s : State), n = 0 ∨ s.dataAddr (n.toNat - 1) ≤ 0x0FFF → ∃ t, Completes (.drw x y n) s t ∧
    SpriteDrawn n.toNat (s.reg x) (s.reg y) s t ∧
    (SpriteHits n.toNat (s.reg x) (s.reg y) s → t.reg 15 = 1) ∧
    (¬ SpriteHits n.toNat (s.reg x) (s.reg y) s → t.reg 15 = 0) ∧
    RegsKeptExcept (fun r => r = 15) s t ∧ KeptExcept [.regs, .display] s t ∧ t.pc = s.pc + 2

/-- 45_display (DRW; R110), 60_exceptions section 2 (R128, decision D17, log entry 20): a sprite that runs off the end of
memory raises `OutOfBounds` at the first address above `0x0FFF`; the rows below it are drawn and `VF` is not written. -/
def Obligations.DrwOffTheEndKeepsTheRowsDrawn : Prop :=
  ∀ x y (n : Nibble) (s : State), n ≠ 0 → 0x0FFF < s.dataAddr (n.toNat - 1) →
    ∃ t, RaisesError (.drw x y n) s (.outOfBounds (max s.i.toNat 0x1000)) t ∧
      SpriteDrawn (0x1000 - s.i.toNat) (s.reg x) (s.reg y) s t ∧ KeptExcept [.display, .errors] s t

/-- 45_display (R110, R112): the same sprite drawn twice at the same place restores the display, and on a display that
is dark under the sprite's 1 bits the second draw reports a collision exactly when the sprite has a lit bit (log entry
33 on the wording of R110's corner case). -/
def Obligations.DrawingTwiceRestoresTheDisplay : Prop :=
  ∀ (x y n : Nibble) (s : State), x ≠ 15 → y ≠ 15 → n = 0 ∨ s.dataAddr (n.toNat - 1) ≤ 0x0FFF →
    ∃ t u, Completes (.drw x y n) s t ∧ Completes (.drw x y n) t u ∧ u.display = s.display ∧
      (¬ SpriteHits n.toNat (s.reg x) (s.reg y) s →
        (SpriteHasLitBit n.toNat s → u.reg 15 = 1) ∧ (¬ SpriteHasLitBit n.toNat s → u.reg 15 = 0))

/-! ## Timer and keypad instructions -/

/-- 46_timer_input section 1 (R113 to R115): the three moves between a register and a timer. -/
def Obligations.TimerMovesCopyOneByte : Prop :=
  (∀ x s, ∃ t, Completes (.ldVxDt x) s t ∧ t.reg x = s.dt ∧ RegsKeptExcept (fun r => r = x) s t ∧
    KeptExcept [.regs] s t ∧ t.pc = s.pc + 2) ∧
  (∀ x s, ∃ t, Completes (.ldDtVx x) s t ∧ t.dt = s.reg x ∧ KeptExcept [.dt] s t ∧ t.pc = s.pc + 2) ∧
  ∀ x s, ∃ t, Completes (.ldStVx x) s t ∧ t.st = s.reg x ∧ KeptExcept [.st] s t ∧ t.pc = s.pc + 2

/-- 46_timer_input section 2 (SKP, SKNP; R116, R117, the payload by decision D18): with a key number of at most 15 the
skip is taken on the latch bit of that key; with a larger one `OutOfBounds` is raised and nothing else changes. -/
def Obligations.KeySkipsTestTheNumberedKey : Prop :=
  (∀ x (s : State) (h : (s.reg x).toNat < 16), ∃ t, Completes (.skp x) s t ∧ KeptExcept [] s t ∧
    t.pc = if s.keyDown ⟨(s.reg x).toNat, h⟩ = true then s.pc + 4 else s.pc + 2) ∧
  (∀ x (s : State) (h : (s.reg x).toNat < 16), ∃ t, Completes (.sknp x) s t ∧ KeptExcept [] s t ∧
    t.pc = if s.keyDown ⟨(s.reg x).toNat, h⟩ = false then s.pc + 4 else s.pc + 2) ∧
  (∀ x (s : State), 15 < (s.reg x).toNat →
    ∃ t, RaisesError (.skp x) s (.outOfBounds (s.reg x).toNat) t ∧ KeptExcept [.errors] s t) ∧
  ∀ x (s : State), 15 < (s.reg x).toNat →
    ∃ t, RaisesError (.sknp x) s (.outOfBounds (s.reg x).toNat) t ∧ KeptExcept [.errors] s t

/-- 46_timer_input section 2 (LD_VX_K; R118, level-sensitive by decision D27, log entry 21): with no key pressed the
instruction stalls, which is `Ok`; else the least pressed key is written. -/
def Obligations.KeyWaitStallsOrTakesTheLeastKey : Prop :=
  (∀ x (s : State), (∀ k, s.keyDown k = false) → ∃ t, Completes (.ldVxK x) s t ∧ t.pc = s.pc ∧ KeptExcept [] s t) ∧
  ∀ x (s : State) k, s.keyDown k = true → (∀ j, j < k → s.keyDown j = false) →
    ∃ t, Completes (.ldVxK x) s t ∧ (t.reg x).toNat = k.val ∧ RegsKeptExcept (fun r => r = x) s t ∧
      KeptExcept [.regs] s t ∧ t.pc = s.pc + 2
end

