-- ==== Sys2Proof/Laws/Memory.lean ====
section
/-! SUPPORT. Memory: a read after a write, and that every memory operation keeps the canonical form. -/

namespace Sys2Proof.Machine

/-! ## Finding a cell -/

@[simp] theorem Memory.find_remove (m : Memory) (a j : Nat) :
    Memory.find j (m.remove a) = if j = a then none else Memory.find j m := by
  induction m with
  | nil => simp [Memory.remove, Memory.find]
  | cons c m ih =>
    by_cases hc : c.1 = a
    · simp only [Memory.remove, hc, if_true, ih, Memory.find]
      by_cases hj : j = a
      · simp [hj]
      · simp [hj, Ne.symm hj]
    · simp only [Memory.remove, hc, if_false, Memory.find, ih]
      by_cases hj : j = a
      · simp [hj, hc]
      · simp [hj]

@[simp] theorem Memory.find_insert (m : Memory) (a : Nat) (b : Byte) (j : Nat) :
    Memory.find j (m.insert a b) = if j = a then some b else Memory.find j m := by
  induction m with
  | nil => simp [Memory.insert, Memory.find, eq_comm]
  | cons c m ih =>
    by_cases hj : j = a
    · subst hj
      unfold Memory.insert
      split
      · simp [Memory.find]
      · split
        · simp [Memory.find]
        · rename_i h; simp [Memory.find, Ne.symm h, ih]
    · have hja : ¬ a = j := fun e => hj e.symm
      unfold Memory.insert
      split
      · simp [Memory.find, hja]
      · split
        · rename_i h; simp [Memory.find, hja, ← h]
        · simp [Memory.find, ih, hj]

/-- R38, R42: a read after a write gives the byte written at its address and what stood there before elsewhere. -/
@[simp] theorem Memory.read_write (m : Memory) (a : Nat) (b : Byte) (j : Nat) :
    (m.write a b).read j = if j = a then b else m.read j := by
  unfold Memory.write Memory.read
  by_cases hb : b = Memory.initial a
  · by_cases hj : j = a <;> simp [hb, hj]
  · by_cases hj : j = a <;> simp [hb, hj]

/-- R28: memory with nothing listed reads as its reset contents. -/
@[simp] theorem Memory.read_nil (a : Nat) : Memory.read [] a = Memory.initial a := rfl

/-! ## The canonical form -/

theorem Memory.mem_remove {m : Memory} {a : Nat} {c : Host.Cell} (h : c ∈ m.remove a) : c ∈ m := by
  induction m with
  | nil => simp [Memory.remove] at h
  | cons d m ih =>
    unfold Memory.remove at h
    split at h
    · exact List.mem_cons_of_mem _ (ih h)
    · rcases List.mem_cons.1 h with rfl | h
      · exact List.mem_cons_self
      · exact List.mem_cons_of_mem _ (ih h)

theorem Memory.mem_insert {m : Memory} {a : Nat} {b : Byte} {c : Host.Cell} (h : c ∈ m.insert a b) :
    c = (a, b) ∨ c ∈ m := by
  induction m with
  | nil => simpa [Memory.insert] using h
  | cons d m ih =>
    unfold Memory.insert at h
    split at h
    · simpa using h
    · split at h
      · rcases List.mem_cons.1 h with rfl | h
        · exact .inl rfl
        · exact .inr (List.mem_cons_of_mem _ h)
      · rcases List.mem_cons.1 h with rfl | h
        · exact .inr List.mem_cons_self
        · exact (ih h).imp id (List.mem_cons_of_mem _)

/-- What the canonical form says of a list with a first cell. -/
theorem Memory.wf_cons {c : Host.Cell} {m : Memory} :
    Memory.wf (c :: m) ↔
      (∀ d ∈ m, c.1 < d.1) ∧ (c.1 < Config.memSize ∧ c.2 ≠ Memory.initial c.1) ∧ Memory.wf m := by
  simp only [Memory.wf, List.pairwise_cons, List.mem_cons, forall_eq_or_imp]
  tauto

theorem Memory.wf_remove {m : Memory} (h : m.wf) (a : Nat) : (m.remove a).wf := by
  induction m with
  | nil => exact h
  | cons c m ih =>
    obtain ⟨h1, h2, h3⟩ := Memory.wf_cons.1 h
    unfold Memory.remove
    split
    · exact ih h3
    · exact Memory.wf_cons.2 ⟨fun d hd => h1 d (Memory.mem_remove hd), h2, ih h3⟩

theorem Memory.wf_insert {m : Memory} (h : m.wf) {a : Nat} {b : Byte} (ha : a < Config.memSize)
    (hb : b ≠ Memory.initial a) : (m.insert a b).wf := by
  induction m with
  | nil => exact Memory.wf_cons.2 ⟨by simp, ⟨ha, hb⟩, h⟩
  | cons c m ih =>
    obtain ⟨h1, h2, h3⟩ := Memory.wf_cons.1 h
    unfold Memory.insert
    split
    · rename_i hlt
      refine Memory.wf_cons.2 ⟨fun d hd => ?_, ⟨ha, hb⟩, h⟩
      rcases List.mem_cons.1 hd with rfl | hd
      · exact hlt
      · exact hlt.trans (h1 d hd)
    · split
      · rename_i heq
        exact Memory.wf_cons.2 ⟨fun d hd => heq ▸ h1 d hd, ⟨ha, hb⟩, h3⟩
      · refine Memory.wf_cons.2 ⟨fun d hd => ?_, h2, ih h3⟩
        rcases Memory.mem_insert hd with rfl | hd
        · show c.1 < a; omega
        · exact h1 d hd

/-- Every write inside memory keeps the canonical form. -/
theorem Memory.wf_write {m : Memory} (h : m.wf) {a : Nat} (ha : a < Config.memSize) (b : Byte) :
    (m.write a b).wf := by
  unfold Memory.write
  split
  · exact Memory.wf_remove h a
  · exact Memory.wf_insert h ha ‹_›

/-! ## Blocks -/

/-- R145, R102: what memory reads after a block of bytes is written from `a` on. -/
theorem Memory.read_writeBlock (m : Memory) (a : Nat) (bytes : List Byte) (j : Nat) :
    (m.writeBlock a bytes).read j = if a ≤ j then (bytes[j - a]?).getD (m.read j) else m.read j := by
  induction bytes generalizing m a with
  | nil => simp [Memory.writeBlock]
  | cons b bytes ih =>
    rw [Memory.writeBlock, ih]
    by_cases h1 : a + 1 ≤ j
    · have h2 : a ≤ j := by omega
      have h3 : j - a = (j - (a + 1)) + 1 := by omega
      have h4 : j ≠ a := by omega
      simp [h1, h2, h3, h4]
    · by_cases h2 : a = j
      · subst h2; simp
      · have h3 : ¬ a ≤ j := by omega
        simp [h1, h3, Ne.symm h2]

/-- A block written inside memory keeps the canonical form. -/
theorem Memory.wf_writeBlock {m : Memory} (h : m.wf) {a : Nat} {bytes : List Byte}
    (ha : bytes.length ≤ Config.memSize - a) : (m.writeBlock a bytes).wf := by
  induction bytes generalizing m a with
  | nil => exact h
  | cons b bytes ih =>
    simp only [List.length_cons] at ha
    exact ih (Memory.wf_write h (by omega) b) (by omega)

end Sys2Proof.Machine
end

