-- ==== Sys2Proof/Laws/State.lean ====
section
/-! SUPPORT. One lemma per field per update of the state, true by rfl, so that no proof unfolds an update; and what
reading a register gives after each of them. -/

namespace Sys2Proof.Machine

variable (s : State)

/-! ## `setReg` -/

@[simp] theorem State.setReg_v (x : Nibble) (b : Byte) : (s.setReg x b).v = s.v.set x.toNat b x.isLt := rfl
@[simp] theorem State.setReg_i (x : Nibble) (b : Byte) : (s.setReg x b).i = s.i := rfl
@[simp] theorem State.setReg_pc (x : Nibble) (b : Byte) : (s.setReg x b).pc = s.pc := rfl
@[simp] theorem State.setReg_stack (x : Nibble) (b : Byte) : (s.setReg x b).stack = s.stack := rfl
@[simp] theorem State.setReg_dt (x : Nibble) (b : Byte) : (s.setReg x b).dt = s.dt := rfl
@[simp] theorem State.setReg_st (x : Nibble) (b : Byte) : (s.setReg x b).st = s.st := rfl
@[simp] theorem State.setReg_acc (x : Nibble) (b : Byte) : (s.setReg x b).acc = s.acc := rfl
@[simp] theorem State.setReg_mem (x : Nibble) (b : Byte) : (s.setReg x b).mem = s.mem := rfl
@[simp] theorem State.setReg_display (x : Nibble) (b : Byte) : (s.setReg x b).display = s.display := rfl
@[simp] theorem State.setReg_key (x : Nibble) (b : Byte) : (s.setReg x b).key = s.key := rfl
@[simp] theorem State.setReg_rnd (x : Nibble) (b : Byte) : (s.setReg x b).rnd = s.rnd := rfl
@[simp] theorem State.setReg_result (x : Nibble) (b : Byte) : (s.setReg x b).result = s.result := rfl
@[simp] theorem State.setReg_firstError (x : Nibble) (b : Byte) : (s.setReg x b).firstError = s.firstError := rfl
@[simp] theorem State.setReg_script (x : Nibble) (b : Byte) : (s.setReg x b).script = s.script := rfl
@[simp] theorem State.setReg_calls (x : Nibble) (b : Byte) : (s.setReg x b).calls = s.calls := rfl

/-! ## `setIndex` -/

@[simp] theorem State.setIndex_v (w : Word) : (s.setIndex w).v = s.v := rfl
@[simp] theorem State.setIndex_i (w : Word) : (s.setIndex w).i = w := rfl
@[simp] theorem State.setIndex_pc (w : Word) : (s.setIndex w).pc = s.pc := rfl
@[simp] theorem State.setIndex_stack (w : Word) : (s.setIndex w).stack = s.stack := rfl
@[simp] theorem State.setIndex_dt (w : Word) : (s.setIndex w).dt = s.dt := rfl
@[simp] theorem State.setIndex_st (w : Word) : (s.setIndex w).st = s.st := rfl
@[simp] theorem State.setIndex_acc (w : Word) : (s.setIndex w).acc = s.acc := rfl
@[simp] theorem State.setIndex_mem (w : Word) : (s.setIndex w).mem = s.mem := rfl
@[simp] theorem State.setIndex_display (w : Word) : (s.setIndex w).display = s.display := rfl
@[simp] theorem State.setIndex_key (w : Word) : (s.setIndex w).key = s.key := rfl
@[simp] theorem State.setIndex_rnd (w : Word) : (s.setIndex w).rnd = s.rnd := rfl
@[simp] theorem State.setIndex_result (w : Word) : (s.setIndex w).result = s.result := rfl
@[simp] theorem State.setIndex_firstError (w : Word) : (s.setIndex w).firstError = s.firstError := rfl
@[simp] theorem State.setIndex_script (w : Word) : (s.setIndex w).script = s.script := rfl
@[simp] theorem State.setIndex_calls (w : Word) : (s.setIndex w).calls = s.calls := rfl
@[simp] theorem State.setIndex_reg (w : Word) (r : Nibble) : (s.setIndex w).reg r = s.reg r := rfl

/-! ## `setDt` -/

@[simp] theorem State.setDt_v (b : Byte) : (s.setDt b).v = s.v := rfl
@[simp] theorem State.setDt_i (b : Byte) : (s.setDt b).i = s.i := rfl
@[simp] theorem State.setDt_pc (b : Byte) : (s.setDt b).pc = s.pc := rfl
@[simp] theorem State.setDt_stack (b : Byte) : (s.setDt b).stack = s.stack := rfl
@[simp] theorem State.setDt_dt (b : Byte) : (s.setDt b).dt = b := rfl
@[simp] theorem State.setDt_st (b : Byte) : (s.setDt b).st = s.st := rfl
@[simp] theorem State.setDt_acc (b : Byte) : (s.setDt b).acc = s.acc := rfl
@[simp] theorem State.setDt_mem (b : Byte) : (s.setDt b).mem = s.mem := rfl
@[simp] theorem State.setDt_display (b : Byte) : (s.setDt b).display = s.display := rfl
@[simp] theorem State.setDt_key (b : Byte) : (s.setDt b).key = s.key := rfl
@[simp] theorem State.setDt_rnd (b : Byte) : (s.setDt b).rnd = s.rnd := rfl
@[simp] theorem State.setDt_result (b : Byte) : (s.setDt b).result = s.result := rfl
@[simp] theorem State.setDt_firstError (b : Byte) : (s.setDt b).firstError = s.firstError := rfl
@[simp] theorem State.setDt_script (b : Byte) : (s.setDt b).script = s.script := rfl
@[simp] theorem State.setDt_calls (b : Byte) : (s.setDt b).calls = s.calls := rfl
@[simp] theorem State.setDt_reg (b : Byte) (r : Nibble) : (s.setDt b).reg r = s.reg r := rfl

/-! ## `setSt` -/

@[simp] theorem State.setSt_v (b : Byte) : (s.setSt b).v = s.v := rfl
@[simp] theorem State.setSt_i (b : Byte) : (s.setSt b).i = s.i := rfl
@[simp] theorem State.setSt_pc (b : Byte) : (s.setSt b).pc = s.pc := rfl
@[simp] theorem State.setSt_stack (b : Byte) : (s.setSt b).stack = s.stack := rfl
@[simp] theorem State.setSt_dt (b : Byte) : (s.setSt b).dt = s.dt := rfl
@[simp] theorem State.setSt_st (b : Byte) : (s.setSt b).st = b := rfl
@[simp] theorem State.setSt_acc (b : Byte) : (s.setSt b).acc = s.acc := rfl
@[simp] theorem State.setSt_mem (b : Byte) : (s.setSt b).mem = s.mem := rfl
@[simp] theorem State.setSt_display (b : Byte) : (s.setSt b).display = s.display := rfl
@[simp] theorem State.setSt_key (b : Byte) : (s.setSt b).key = s.key := rfl
@[simp] theorem State.setSt_rnd (b : Byte) : (s.setSt b).rnd = s.rnd := rfl
@[simp] theorem State.setSt_result (b : Byte) : (s.setSt b).result = s.result := rfl
@[simp] theorem State.setSt_firstError (b : Byte) : (s.setSt b).firstError = s.firstError := rfl
@[simp] theorem State.setSt_script (b : Byte) : (s.setSt b).script = s.script := rfl
@[simp] theorem State.setSt_calls (b : Byte) : (s.setSt b).calls = s.calls := rfl
@[simp] theorem State.setSt_reg (b : Byte) (r : Nibble) : (s.setSt b).reg r = s.reg r := rfl

/-! ## `push` -/

@[simp] theorem State.push_v (w : Word) : (s.push w).v = s.v := rfl
@[simp] theorem State.push_i (w : Word) : (s.push w).i = s.i := rfl
@[simp] theorem State.push_pc (w : Word) : (s.push w).pc = s.pc := rfl
@[simp] theorem State.push_stack (w : Word) : (s.push w).stack = w :: s.stack := rfl
@[simp] theorem State.push_dt (w : Word) : (s.push w).dt = s.dt := rfl
@[simp] theorem State.push_st (w : Word) : (s.push w).st = s.st := rfl
@[simp] theorem State.push_acc (w : Word) : (s.push w).acc = s.acc := rfl
@[simp] theorem State.push_mem (w : Word) : (s.push w).mem = s.mem := rfl
@[simp] theorem State.push_display (w : Word) : (s.push w).display = s.display := rfl
@[simp] theorem State.push_key (w : Word) : (s.push w).key = s.key := rfl
@[simp] theorem State.push_rnd (w : Word) : (s.push w).rnd = s.rnd := rfl
@[simp] theorem State.push_result (w : Word) : (s.push w).result = s.result := rfl
@[simp] theorem State.push_firstError (w : Word) : (s.push w).firstError = s.firstError := rfl
@[simp] theorem State.push_script (w : Word) : (s.push w).script = s.script := rfl
@[simp] theorem State.push_calls (w : Word) : (s.push w).calls = s.calls := rfl
@[simp] theorem State.push_reg (w : Word) (r : Nibble) : (s.push w).reg r = s.reg r := rfl

/-! ## `goTo` -/

@[simp] theorem State.goTo_v (w : Word) : (s.goTo w).v = s.v := rfl
@[simp] theorem State.goTo_i (w : Word) : (s.goTo w).i = s.i := rfl
@[simp] theorem State.goTo_pc (w : Word) : (s.goTo w).pc = w := rfl
@[simp] theorem State.goTo_stack (w : Word) : (s.goTo w).stack = s.stack := rfl
@[simp] theorem State.goTo_dt (w : Word) : (s.goTo w).dt = s.dt := rfl
@[simp] theorem State.goTo_st (w : Word) : (s.goTo w).st = s.st := rfl
@[simp] theorem State.goTo_acc (w : Word) : (s.goTo w).acc = s.acc := rfl
@[simp] theorem State.goTo_mem (w : Word) : (s.goTo w).mem = s.mem := rfl
@[simp] theorem State.goTo_display (w : Word) : (s.goTo w).display = s.display := rfl
@[simp] theorem State.goTo_key (w : Word) : (s.goTo w).key = s.key := rfl
@[simp] theorem State.goTo_rnd (w : Word) : (s.goTo w).rnd = s.rnd := rfl
@[simp] theorem State.goTo_result (w : Word) : (s.goTo w).result = .ok := rfl
@[simp] theorem State.goTo_firstError (w : Word) : (s.goTo w).firstError = s.firstError := rfl
@[simp] theorem State.goTo_script (w : Word) : (s.goTo w).script = s.script := rfl
@[simp] theorem State.goTo_calls (w : Word) : (s.goTo w).calls = s.calls := rfl
@[simp] theorem State.goTo_reg (w : Word) (r : Nibble) : (s.goTo w).reg r = s.reg r := rfl

/-! ## `raise` -/

@[simp] theorem State.raise_v (e : EngineError) : (s.raise e).v = s.v := rfl
@[simp] theorem State.raise_i (e : EngineError) : (s.raise e).i = s.i := rfl
@[simp] theorem State.raise_pc (e : EngineError) : (s.raise e).pc = s.pc := rfl
@[simp] theorem State.raise_stack (e : EngineError) : (s.raise e).stack = s.stack := rfl
@[simp] theorem State.raise_dt (e : EngineError) : (s.raise e).dt = s.dt := rfl
@[simp] theorem State.raise_st (e : EngineError) : (s.raise e).st = s.st := rfl
@[simp] theorem State.raise_acc (e : EngineError) : (s.raise e).acc = s.acc := rfl
@[simp] theorem State.raise_mem (e : EngineError) : (s.raise e).mem = s.mem := rfl
@[simp] theorem State.raise_display (e : EngineError) : (s.raise e).display = s.display := rfl
@[simp] theorem State.raise_key (e : EngineError) : (s.raise e).key = s.key := rfl
@[simp] theorem State.raise_rnd (e : EngineError) : (s.raise e).rnd = s.rnd := rfl
@[simp] theorem State.raise_result (e : EngineError) : (s.raise e).result = .error e := rfl
@[simp] theorem State.raise_firstError (e : EngineError) : (s.raise e).firstError = s.firstError.or (some e) := rfl
@[simp] theorem State.raise_script (e : EngineError) : (s.raise e).script = s.script := rfl
@[simp] theorem State.raise_calls (e : EngineError) : (s.raise e).calls = s.calls := rfl
@[simp] theorem State.raise_reg (e : EngineError) (r : Nibble) : (s.raise e).reg r = s.reg r := rfl

/-! ## `setKeys` -/

@[simp] theorem State.setKeys_v (k : Keys) : (s.setKeys k).v = s.v := rfl
@[simp] theorem State.setKeys_i (k : Keys) : (s.setKeys k).i = s.i := rfl
@[simp] theorem State.setKeys_pc (k : Keys) : (s.setKeys k).pc = s.pc := rfl
@[simp] theorem State.setKeys_stack (k : Keys) : (s.setKeys k).stack = s.stack := rfl
@[simp] theorem State.setKeys_dt (k : Keys) : (s.setKeys k).dt = s.dt := rfl
@[simp] theorem State.setKeys_st (k : Keys) : (s.setKeys k).st = s.st := rfl
@[simp] theorem State.setKeys_acc (k : Keys) : (s.setKeys k).acc = s.acc := rfl
@[simp] theorem State.setKeys_mem (k : Keys) : (s.setKeys k).mem = s.mem := rfl
@[simp] theorem State.setKeys_display (k : Keys) : (s.setKeys k).display = s.display := rfl
@[simp] theorem State.setKeys_key (k : Keys) : (s.setKeys k).key = k := rfl
@[simp] theorem State.setKeys_rnd (k : Keys) : (s.setKeys k).rnd = s.rnd := rfl
@[simp] theorem State.setKeys_result (k : Keys) : (s.setKeys k).result = s.result := rfl
@[simp] theorem State.setKeys_firstError (k : Keys) : (s.setKeys k).firstError = s.firstError := rfl
@[simp] theorem State.setKeys_script (k : Keys) : (s.setKeys k).script = s.script := rfl
@[simp] theorem State.setKeys_calls (k : Keys) : (s.setKeys k).calls = s.calls := rfl
@[simp] theorem State.setKeys_reg (k : Keys) (r : Nibble) : (s.setKeys k).reg r = s.reg r := rfl

/-! ## The program-counter outcomes are `goTo` -/

@[simp] theorem State.toNext_eq : s.toNext = s.goTo (s.pc + 2) := rfl
@[simp] theorem State.toSkip_eq : s.toSkip = s.goTo (s.pc + 4) := rfl
@[simp] theorem State.stay_eq : s.stay = s.goTo s.pc := rfl
@[simp] theorem State.skipIf_eq (b : Bool) : s.skipIf b = s.goTo (if b then s.pc + 4 else s.pc + 2) := rfl

/-! ## Registers -/

theorem State.reg_def (r : Nibble) : s.reg r = s.v[r.toNat]'r.isLt := rfl

/-- R10: reading a register after writing one. -/
@[simp] theorem State.setReg_reg (x : Nibble) (b : Byte) (r : Nibble) :
    (s.setReg x b).reg r = if r = x then b else s.reg r := by
  simp only [State.reg, State.setReg, Vector.getElem_set]
  by_cases h : r = x
  · simp [h]
  · have hx : x.toNat ≠ r.toNat := fun e => h (BitVec.eq_of_toNat_eq e.symm)
    simp [h, hx]

/-- R86: the result register and the flag register after both are written; the flag wins where they are one. -/
@[simp] theorem State.setRegAndFlag_reg (x : Nibble) (a f : Byte) (r : Nibble) :
    (s.setRegAndFlag x a f).reg r = if r = flagReg then f else if r = x then a else s.reg r := by
  simp [State.setRegAndFlag]

/-- Two states with the same registers have the same register file. -/
theorem State.v_eq_of_reg {s t : State} (h : ∀ x, t.reg x = s.reg x) : t.v = s.v := by
  apply Vector.ext
  intro k hk
  have := h (BitVec.ofNat 4 k)
  simpa [State.reg, Nat.mod_eq_of_lt hk] using this

/-! ## Timer phase -/

@[simp] theorem State.timerPhase_v (e : Nat) : (s.timerPhase e).v = s.v := rfl
@[simp] theorem State.timerPhase_i (e : Nat) : (s.timerPhase e).i = s.i := rfl
@[simp] theorem State.timerPhase_pc (e : Nat) : (s.timerPhase e).pc = s.pc := rfl
@[simp] theorem State.timerPhase_stack (e : Nat) : (s.timerPhase e).stack = s.stack := rfl
@[simp] theorem State.timerPhase_mem (e : Nat) : (s.timerPhase e).mem = s.mem := rfl
@[simp] theorem State.timerPhase_display (e : Nat) : (s.timerPhase e).display = s.display := rfl
@[simp] theorem State.timerPhase_key (e : Nat) : (s.timerPhase e).key = s.key := rfl
@[simp] theorem State.timerPhase_rnd (e : Nat) : (s.timerPhase e).rnd = s.rnd := rfl
@[simp] theorem State.timerPhase_result (e : Nat) : (s.timerPhase e).result = s.result := rfl
@[simp] theorem State.timerPhase_firstError (e : Nat) : (s.timerPhase e).firstError = s.firstError := rfl
@[simp] theorem State.timerPhase_script (e : Nat) : (s.timerPhase e).script = s.script := rfl
@[simp] theorem State.timerPhase_calls (e : Nat) : (s.timerPhase e).calls = s.calls := rfl
@[simp] theorem State.timerPhase_reg (e : Nat) (r : Nibble) : (s.timerPhase e).reg r = s.reg r := rfl

/-! ## The host's operations (R140, R145) -/

@[simp] theorem State.hostReset_v : s.hostReset.v = State.reset.v := rfl
@[simp] theorem State.hostReset_i : s.hostReset.i = State.reset.i := rfl
@[simp] theorem State.hostReset_pc : s.hostReset.pc = State.reset.pc := rfl
@[simp] theorem State.hostReset_stack : s.hostReset.stack = State.reset.stack := rfl
@[simp] theorem State.hostReset_dt : s.hostReset.dt = State.reset.dt := rfl
@[simp] theorem State.hostReset_st : s.hostReset.st = State.reset.st := rfl
@[simp] theorem State.hostReset_acc : s.hostReset.acc = State.reset.acc := rfl
@[simp] theorem State.hostReset_mem : s.hostReset.mem = State.reset.mem := rfl
@[simp] theorem State.hostReset_display : s.hostReset.display = State.reset.display := rfl
@[simp] theorem State.hostReset_key : s.hostReset.key = State.reset.key := rfl
@[simp] theorem State.hostReset_rnd : s.hostReset.rnd = s.rnd := rfl
@[simp] theorem State.hostReset_result : s.hostReset.result = s.result := rfl
@[simp] theorem State.hostReset_firstError : s.hostReset.firstError = s.firstError := rfl
@[simp] theorem State.hostReset_script : s.hostReset.script = s.script := rfl
@[simp] theorem State.hostReset_calls : s.hostReset.calls = s.calls := rfl
@[simp] theorem State.hostReset_reg (r : Nibble) : s.hostReset.reg r = State.reset.reg r := rfl

@[simp] theorem State.loadProgram_v (p : Program) : (s.loadProgram p).v = s.v := rfl
@[simp] theorem State.loadProgram_i (p : Program) : (s.loadProgram p).i = s.i := rfl
@[simp] theorem State.loadProgram_pc (p : Program) : (s.loadProgram p).pc = s.pc := rfl
@[simp] theorem State.loadProgram_stack (p : Program) : (s.loadProgram p).stack = s.stack := rfl
@[simp] theorem State.loadProgram_dt (p : Program) : (s.loadProgram p).dt = s.dt := rfl
@[simp] theorem State.loadProgram_st (p : Program) : (s.loadProgram p).st = s.st := rfl
@[simp] theorem State.loadProgram_acc (p : Program) : (s.loadProgram p).acc = s.acc := rfl
@[simp] theorem State.loadProgram_mem (p : Program) :
    (s.loadProgram p).mem = s.mem.writeBlock Config.programStart.toNat p.bytes := rfl
@[simp] theorem State.loadProgram_display (p : Program) : (s.loadProgram p).display = s.display := rfl
@[simp] theorem State.loadProgram_key (p : Program) : (s.loadProgram p).key = s.key := rfl
@[simp] theorem State.loadProgram_rnd (p : Program) : (s.loadProgram p).rnd = s.rnd := rfl
@[simp] theorem State.loadProgram_result (p : Program) : (s.loadProgram p).result = s.result := rfl
@[simp] theorem State.loadProgram_firstError (p : Program) : (s.loadProgram p).firstError = s.firstError := rfl
@[simp] theorem State.loadProgram_script (p : Program) : (s.loadProgram p).script = s.script := rfl
@[simp] theorem State.loadProgram_calls (p : Program) : (s.loadProgram p).calls = s.calls := rfl
@[simp] theorem State.loadProgram_reg (p : Program) (r : Nibble) : (s.loadProgram p).reg r = s.reg r := rfl

@[simp] theorem State.perform_reset : s.perform .reset = s.hostReset := rfl
@[simp] theorem State.perform_load (p : Program) : s.perform (.load p) = s.loadProgram p := rfl
@[simp] theorem State.perform_setKeys (k : Keys) : s.perform (.setKeys k) = s.setKeys k := rfl
@[simp] theorem State.perform_display : s.perform .display = s := rfl
@[simp] theorem State.perform_inspect : s.perform .inspect = s := rfl

/-- No operation of the host touches the model's own fields. -/
theorem State.perform_own (op : HostOp) :
    (s.perform op).rnd = s.rnd ∧ (s.perform op).result = s.result ∧ (s.perform op).firstError = s.firstError ∧
    (s.perform op).script = s.script ∧ (s.perform op).calls = s.calls := by
  cases op <;> simp

@[simp] theorem State.performAll_nil : s.performAll [] = s := rfl
@[simp] theorem State.performAll_cons (op : HostOp) (ops : List HostOp) :
    s.performAll (op :: ops) = (s.perform op).performAll ops := rfl

/-- R149: operations in order. -/
theorem State.performAll_append (ops more : List HostOp) (s : State) :
    s.performAll (ops ++ more) = (s.performAll ops).performAll more := by
  induction ops generalizing s with
  | nil => rfl
  | cons op ops ih => exact ih (s.perform op)

/-- What every operation of the host keeps, a list of them keeps. -/
theorem State.performAll_induction {P : State → Prop} {ops : List HostOp} {s : State} (h : P s)
    (step : ∀ op ∈ ops, ∀ t, P t → P (t.perform op)) : P (s.performAll ops) := by
  induction ops generalizing s with
  | nil => exact h
  | cons op ops ih =>
    exact ih (step op List.mem_cons_self s h) fun o ho => step o (List.mem_cons_of_mem op ho)

/-- No list of operations of the host touches the model's own fields. -/
theorem State.performAll_own (ops : List HostOp) (s : State) :
    (s.performAll ops).rnd = s.rnd ∧ (s.performAll ops).result = s.result ∧
    (s.performAll ops).firstError = s.firstError ∧ (s.performAll ops).script = s.script ∧
    (s.performAll ops).calls = s.calls :=
  State.performAll_induction
    (P := fun t => t.rnd = s.rnd ∧ t.result = s.result ∧ t.firstError = s.firstError ∧ t.script = s.script ∧
      t.calls = s.calls)
    ⟨rfl, rfl, rfl, rfl, rfl⟩ fun op _ t h => by have := t.perform_own op; simp_all

/-! ## The host's turn (R149) -/

/-- The state in which the host calls `advance`, where its turn has no other operation. -/
theorem State.beginTurn_of_nil (h : s.hostTurn.ops = []) :
    s.beginTurn = { s with script := s.script.tail, calls := s.calls + 1 } := by
  rw [State.beginTurn, h]; rfl

@[simp] theorem State.beginTurn_rnd : s.beginTurn.rnd = s.rnd := (State.performAll_own ..).1
@[simp] theorem State.beginTurn_result : s.beginTurn.result = s.result := (State.performAll_own ..).2.1
@[simp] theorem State.beginTurn_firstError : s.beginTurn.firstError = s.firstError := (State.performAll_own ..).2.2.1
@[simp] theorem State.beginTurn_script : s.beginTurn.script = s.script.tail := (State.performAll_own ..).2.2.2.1
@[simp] theorem State.beginTurn_calls : s.beginTurn.calls = s.calls + 1 := (State.performAll_own ..).2.2.2.2

end Sys2Proof.Machine
end

