-- ==== Sys2Proof/Laws/Access.lean ====
section
/-! SUPPORT. What the accesses of one instruction can do: checked reads and writes, the block store, the block load and
the sprite rows, each said once for every count, the failing case included. -/

namespace Sys2Proof.Machine

@[simp] theorem memSize_eq : Config.memSize = 4096 := rfl

/-! ## One checked access -/

/-- R37. -/
theorem State.memRead_of_lt {s : State} {a : Nat} (h : a < 4096) : s.memRead a = .ok (s.mem.read a) := by
  simp [State.memRead, h]

/-- R37. -/
theorem State.memRead_of_ge {s : State} {a : Nat} (h : 4096 ≤ a) : s.memRead a = .error (.outOfBounds a) := by
  simp [State.memRead, Nat.not_lt.2 h]

/-- R38. -/
theorem State.memWrite_of_lt {s : State} {a : Nat} (h : a < 4096) (b : Byte) :
    s.memWrite a b = .ok { s with mem := s.mem.write a b } := by
  simp [State.memWrite, h]

/-- R38. -/
theorem State.memWrite_of_ge {s : State} {a : Nat} (h : 4096 ≤ a) (b : Byte) :
    s.memWrite a b = .error (.outOfBounds a, s) := by
  simp [State.memWrite, Nat.not_lt.2 h]

@[simp] theorem State.dataAddr_mem (s : State) (m : Memory) (k : Nat) :
    { s with mem := m }.dataAddr k = s.dataAddr k := rfl
@[simp] theorem State.dataAddr_display (s : State) (d : Display) (k : Nat) :
    { s with display := d }.dataAddr k = s.dataAddr k := rfl
@[simp] theorem State.dataAddr_setReg (s : State) (x : Nibble) (b : Byte) (k : Nat) :
    (s.setReg x b).dataAddr k = s.dataAddr k := rfl

theorem State.dataAddr_add (s : State) (k j : Nat) : s.dataAddr (k + j) = s.dataAddr k + j := by
  simp [State.dataAddr, Nat.add_assoc]

/-! ## The block store (R102, R106, R107) -/

/-- Everything a block store does: all its bytes where they fit below `0x1000`, else those that do and the error at
the first address beyond. -/
theorem storeBytes_eq (bytes : List Byte) (k : Nat) (s : State) :
    storeBytes bytes k s =
      if bytes.length ≤ 4096 - s.dataAddr k then .ok { s with mem := s.mem.writeBlock (s.dataAddr k) bytes }
      else .error (.outOfBounds (max (s.dataAddr k) 4096),
        { s with mem := s.mem.writeBlock (s.dataAddr k) (bytes.take (4096 - s.dataAddr k)) }) := by
  induction bytes generalizing k s with
  | nil => simp [storeBytes, Memory.writeBlock]
  | cons b bytes ih =>
    rw [storeBytes]
    by_cases h : s.dataAddr k < 4096
    · rw [State.memWrite_of_lt h]
      simp only [Except.bind]
      rw [ih]
      obtain ⟨room, hroom⟩ : ∃ room, 4096 - s.dataAddr k = room + 1 := ⟨4096 - s.dataAddr k - 1, by omega⟩
      have h1 : 4096 - (s.dataAddr k + 1) = room := by omega
      have h2 : max (s.dataAddr k + 1) 4096 = max (s.dataAddr k) 4096 := by omega
      simp only [State.dataAddr_mem, State.dataAddr_add, h1, hroom, h2, List.length_cons, Nat.add_le_add_iff_right,
        List.take_succ_cons, Memory.writeBlock]
    · have h0 : 4096 - s.dataAddr k = 0 := by omega
      have h2 : max (s.dataAddr k) 4096 = s.dataAddr k := by omega
      rw [State.memWrite_of_ge (by omega)]
      simp [Except.bind, h0, h2, Memory.writeBlock]

/-! ## The block load (R108) -/

theorem blockReg_eq_iff {k : Nat} (hk : k < 16) (x : Nibble) : x = blockReg k ↔ x.toNat = k := by
  constructor
  · rintro rfl; simp [blockReg, Nat.mod_eq_of_lt hk]
  · intro h; apply BitVec.eq_of_toNat_eq; simp [blockReg, Nat.mod_eq_of_lt hk, h]

/-- `t` is `s` with the registers numbered `k .. k + count - 1` loaded from `I + k` on. -/
def RegsLoaded (count k : Nat) (s t : State) : Prop :=
  t = { s with v := t.v } ∧
  ∀ x : Nibble, t.reg x = if k ≤ x.toNat ∧ x.toNat < k + count then s.mem.read (s.dataAddr x.toNat) else s.reg x

/-- Everything a block load does: all its registers where the bytes lie below `0x1000`, else those that do and the
error at the first address beyond. -/
theorem loadRegs_spec (count k : Nat) (s : State) (hk : k + count ≤ 16) :
    if count ≤ 4096 - s.dataAddr k then ∃ t, loadRegs count k s = .ok t ∧ RegsLoaded count k s t
    else ∃ t, loadRegs count k s = .error (.outOfBounds (max (s.dataAddr k) 4096), t) ∧
      RegsLoaded (4096 - s.dataAddr k) k s t := by
  induction count generalizing k s with
  | zero =>
    simp only [Nat.zero_le, if_true]
    exact ⟨s, rfl, rfl, fun x => by rw [if_neg (by omega)]⟩
  | succ count ih =>
    rw [loadRegs]
    by_cases h : s.dataAddr k < 4096
    · rw [State.memRead_of_lt h]
      have key : ∀ c t, RegsLoaded c (k + 1) (s.setReg (blockReg k) (s.mem.read (s.dataAddr k))) t →
          RegsLoaded (c + 1) k s t := by
        rintro c t ⟨h1, h2⟩
        refine ⟨by rw [h1]; rfl, fun x => ?_⟩
        rw [h2]
        simp only [State.setReg_mem, State.dataAddr_setReg, State.setReg_reg, blockReg_eq_iff (show k < 16 by omega)]
        by_cases hx : x.toNat = k
        · rw [if_neg (by omega), if_pos hx, if_pos (by omega), hx]
        · by_cases hr : k + 1 ≤ x.toNat ∧ x.toNat < k + 1 + c
          · rw [if_pos hr, if_pos (by omega)]
          · rw [if_neg hr, if_neg hx, if_neg (by omega)]
      have ih' := ih (k + 1) (s.setReg (blockReg k) (s.mem.read (s.dataAddr k))) (by omega)
      simp only [State.dataAddr_setReg, State.dataAddr_add] at ih'
      by_cases hc : count ≤ 4096 - (s.dataAddr k + 1)
      · rw [if_pos hc] at ih'
        rw [if_pos (by omega)]
        obtain ⟨t, e, l⟩ := ih'
        exact ⟨t, e, key _ _ l⟩
      · rw [if_neg hc] at ih'
        rw [if_neg (by omega)]
        obtain ⟨t, e, l⟩ := ih'
        have h2 : max (s.dataAddr k + 1) 4096 = max (s.dataAddr k) 4096 := by omega
        have h3 : 4096 - s.dataAddr k = 4096 - (s.dataAddr k + 1) + 1 := by omega
        exact ⟨t, by rw [← h2]; exact e, by rw [h3]; exact key _ _ l⟩
    · have h0 : 4096 - s.dataAddr k = 0 := by omega
      rw [State.memRead_of_ge (by omega), if_neg (by omega)]
      refine ⟨s, by rw [Nat.max_eq_left (by omega)], rfl, fun x => ?_⟩
      rw [if_neg (by omega)]

/-! ## Pixels -/

/-- R110: a toggled pixel is inverted, every other pixel is as it was. -/
@[simp] theorem Display.pixel_toggle (d : Display) (col c : Fin 64) (row r : Fin 32) :
    (d.toggle col row).pixel c r = (d.pixel c r ^^ decide (col = c ∧ row = r)) := by
  simp only [Display.pixel, Display.toggle, Fin.getElem_fin, Vector.getElem_set]
  by_cases hr : row = r
  · subst hr
    by_cases hc : col = c
    · subst hc; simp
    · have : ¬ col.val = c.val := fun e => hc (Fin.ext e)
      simp [hc, this]
  · have : ¬ row.val = r.val := fun e => hr (Fin.ext e)
    simp [hr, this]

/-- R109: a dark display has no lit pixel. -/
@[simp] theorem Display.pixel_dark (col : Fin 64) (row : Fin 32) : Display.dark.pixel col row = false := by
  simp [Display.pixel, Display.dark]

/-- Two displays with the same pixels are the same. -/
theorem Display.eq_of_pixel {d e : Display} (h : ∀ col row, d.pixel col row = e.pixel col row) : d = e := by
  apply Vector.ext
  intro r hr
  apply Vector.ext
  intro c hc
  exact h ⟨c, hc⟩ ⟨r, hr⟩

end Sys2Proof.Machine
end

