-- ==== Sys2Proof/Laws/Encoding.lean ====
section
/-! SUPPORT. Words, bytes and address fields as nibbles: what the decoder reads from a word written as four nibbles, and
that every word, constant and address field is so written (spec/30_encoding.md R46, R47). -/

namespace Sys2Proof

theorem toNat_append_nibble {w : Nat} (a : BitVec w) (n : Nibble) : (a ++ n).toNat = a.toNat * 16 + n.toNat := by
  rw [BitVec.toNat_append, ← Nat.shiftLeft_add_eq_or_of_lt n.isLt, Nat.shiftLeft_eq]

theorem toNat_append_byte {w : Nat} (a : BitVec w) (b : Byte) : (a ++ b).toNat = a.toNat * 256 + b.toNat := by
  rw [BitVec.toNat_append, ← Nat.shiftLeft_add_eq_or_of_lt b.isLt, Nat.shiftLeft_eq]

theorem toNat_append_addr {w : Nat} (a : BitVec w) (n : Addr) : (a ++ n).toNat = a.toNat * 4096 + n.toNat := by
  rw [BitVec.toNat_append, ← Nat.shiftLeft_add_eq_or_of_lt n.isLt, Nat.shiftLeft_eq]

/-! ## The four nibbles of a word (R46) -/

section
variable (n3 n2 n1 n0 : Nibble)

@[simp] theorem hiNibble_wordHi : hiNibble (wordHi (n3 ++ n2 ++ n1 ++ n0)) = n3 := by
  apply BitVec.eq_of_toNat_eq
  simp only [hiNibble, wordHi, toNat_append_nibble, BitVec.extractLsb'_toNat, Nat.shiftRight_eq_div_pow]
  omega

@[simp] theorem loNibble_wordHi : loNibble (wordHi (n3 ++ n2 ++ n1 ++ n0)) = n2 := by
  apply BitVec.eq_of_toNat_eq
  simp only [loNibble, wordHi, toNat_append_nibble, BitVec.extractLsb'_toNat, Nat.shiftRight_eq_div_pow]
  omega

@[simp] theorem hiNibble_wordLo : hiNibble (wordLo (n3 ++ n2 ++ n1 ++ n0)) = n1 := by
  apply BitVec.eq_of_toNat_eq
  simp only [hiNibble, wordLo, toNat_append_nibble, BitVec.extractLsb'_toNat, Nat.shiftRight_eq_div_pow]
  omega

@[simp] theorem loNibble_wordLo : loNibble (wordLo (n3 ++ n2 ++ n1 ++ n0)) = n0 := by
  apply BitVec.eq_of_toNat_eq
  simp only [loNibble, wordLo, toNat_append_nibble, BitVec.extractLsb'_toNat, Nat.shiftRight_eq_div_pow]
  omega

/-- R46, R50: decoding a word is looking its four nibbles up. -/
theorem decodeWord_nibbles :
    decodeWord (n3 ++ n2 ++ n1 ++ n0) =
      match decodeNibbles n3 n2 n1 n0 with
      | some i => .ok i
      | none => .error (.invalidInstruction n3 n2 n1 n0) := by
  rcases h : decodeNibbles n3 n2 n1 n0 with _ | i <;> simp [decodeWord, decode, h]

/-! ## Fields (R47) -/

theorem append_fieldNnn : (n3 ++ fieldNnn n2 n1 n0 : Word) = n3 ++ n2 ++ n1 ++ n0 := by
  apply BitVec.eq_of_toNat_eq
  simp only [fieldNnn, toNat_append_addr, toNat_append_nibble]
  omega

theorem append_fieldKk : (n3 ++ n2 ++ fieldKk n1 n0 : Word) = n3 ++ n2 ++ n1 ++ n0 := by
  apply BitVec.eq_of_toNat_eq
  simp only [fieldKk, toNat_append_byte, toNat_append_nibble]
  omega

end

/-- Every byte is its two nibbles. -/
theorem hi_append_lo (b : Byte) : fieldKk (hiNibble b) (loNibble b) = b := by
  apply BitVec.eq_of_toNat_eq
  simp only [fieldKk, hiNibble, loNibble, toNat_append_nibble, BitVec.extractLsb'_toNat, Nat.shiftRight_eq_div_pow]
  omega

/-- R46, R50: decoding a word written as an opcode nibble, a register nibble and a byte. -/
theorem decodeWord_byte (n3 x : Nibble) (b : Byte) :
    decodeWord (n3 ++ x ++ b) =
      match decodeNibbles n3 x (hiNibble b) (loNibble b) with
      | some i => .ok i
      | none => .error (.invalidInstruction n3 x (hiNibble b) (loNibble b)) := by
  have h := decodeWord_nibbles n3 x (hiNibble b) (loNibble b)
  rw [← append_fieldKk, hi_append_lo] at h
  exact h

/-- Every constant `kk` is two nibbles. -/
theorem exists_fieldKk (kk : Byte) : ∃ n1 n0, kk = fieldKk n1 n0 := ⟨_, _, (hi_append_lo kk).symm⟩

/-- Every address field `nnn` is three nibbles. -/
theorem exists_fieldNnn (nnn : Addr) : ∃ n2 n1 n0, nnn = fieldNnn n2 n1 n0 := by
  refine ⟨nnn.extractLsb' 8 4, nnn.extractLsb' 4 4, nnn.extractLsb' 0 4, ?_⟩
  apply BitVec.eq_of_toNat_eq
  simp only [fieldNnn, toNat_append_nibble, BitVec.extractLsb'_toNat, Nat.shiftRight_eq_div_pow]
  omega

/-- Every word is four nibbles. -/
theorem exists_nibbles (w : Word) : ∃ n3 n2 n1 n0 : Nibble, w = n3 ++ n2 ++ n1 ++ n0 := by
  refine ⟨w.extractLsb' 12 4, w.extractLsb' 8 4, w.extractLsb' 4 4, w.extractLsb' 0 4, ?_⟩
  apply BitVec.eq_of_toNat_eq
  simp only [toNat_append_nibble, BitVec.extractLsb'_toNat, Nat.shiftRight_eq_div_pow]
  omega

/-- The two bytes of a word, the first one high (R46). -/
theorem wordHi_append_wordLo (w : Word) : (wordHi w ++ wordLo w : Word) = w := by
  apply BitVec.eq_of_toNat_eq
  simp only [wordHi, wordLo, toNat_append_byte, BitVec.extractLsb'_toNat, Nat.shiftRight_eq_div_pow]
  omega

/-! ## Masks of the opcode map (R51) -/

theorem nibble_and_ones (a : Nibble) : a &&& 0xF#4 = a := BitVec.and_allOnes (x := a)

theorem and_maskNnn (a : Nibble) (n : Addr) : (a ++ n : Word) &&& 0xF000 = a ++ 0#12 := by
  rw [show (0xF000 : Word) = 0xF#4 ++ 0#12 from rfl, BitVec.and_append, nibble_and_ones, BitVec.and_zero]

theorem and_maskXkk (a x : Nibble) (kk : Byte) : (a ++ x ++ kk : Word) &&& 0xF000 = a ++ 0#4 ++ 0#8 := by
  rw [show (0xF000 : Word) = 0xF#4 ++ 0#4 ++ 0#8 from rfl, BitVec.and_append, BitVec.and_append, nibble_and_ones,
    BitVec.and_zero, BitVec.and_zero]

theorem and_maskXy (a x y b : Nibble) : (a ++ x ++ y ++ b : Word) &&& 0xF00F = a ++ 0#4 ++ 0#4 ++ b := by
  rw [show (0xF00F : Word) = 0xF#4 ++ 0#4 ++ 0#4 ++ 0xF#4 from rfl, BitVec.and_append, BitVec.and_append,
    BitVec.and_append, nibble_and_ones, nibble_and_ones, BitVec.and_zero, BitVec.and_zero]

theorem and_maskXyn (a x y n : Nibble) : (a ++ x ++ y ++ n : Word) &&& 0xF000 = a ++ 0#4 ++ 0#4 ++ 0#4 := by
  rw [show (0xF000 : Word) = 0xF#4 ++ 0#4 ++ 0#4 ++ 0#4 from rfl, BitVec.and_append, BitVec.and_append,
    BitVec.and_append, nibble_and_ones, BitVec.and_zero, BitVec.and_zero, BitVec.and_zero]

theorem and_maskX (a x : Nibble) (b : Byte) : (a ++ x ++ b : Word) &&& 0xF0FF = a ++ 0#4 ++ b := by
  rw [show (0xF0FF : Word) = 0xF#4 ++ 0#4 ++ 0xFF#8 from rfl, BitVec.and_append, BitVec.and_append, nibble_and_ones,
    BitVec.and_zero, show b &&& 0xFF#8 = b from BitVec.and_allOnes]

end Sys2Proof
end

