-- ==== Sys2Proof/Laws/Sprite.lean ====
section
/-! SUPPORT. What drawing a sprite does (spec/45_display.md R110 to R112): the pixels of a region of sprite rows and
columns are exclusive-ored with their bits, no other pixel changes, and a hit is a lit pixel under a 1 bit. -/

namespace Sys2Proof.Machine

/-- Two sprite columns of one sprite never fall on the same screen column (R111). -/
theorem spriteCol_inj {vx : Byte} {c c' : Nat} (hc : c < 8) (hc' : c' < 8) (h : spriteCol vx c = spriteCol vx c') :
    c = c' := by
  have := congrArg Fin.val h
  simp only [spriteCol, Fin.val_ofNat] at this
  omega

/-- Two sprite rows of one sprite never fall on the same screen row (R111). -/
theorem spriteRow_inj {vy : Byte} {r r' : Nat} (hr : r < 16) (hr' : r' < 16)
    (h : spriteRow vy r = spriteRow vy r') : r = r' := by
  have := congrArg Fin.val h
  simp only [spriteRow, Fin.val_ofNat] at this
  omega

/-- `e` is `d` with the pixels under the sprite positions of `R` exclusive-ored with `bit`. -/
def Drawn (R : Nat → Nat → Prop) (bit : Nat → Nat → Bool) (vx vy : Byte) (d e : Display) : Prop :=
  (∀ r c, R r c → e.pixel (spriteCol vx c) (spriteRow vy r) =
    (d.pixel (spriteCol vx c) (spriteRow vy r) ^^ bit r c)) ∧
  ∀ col row, (∀ r c, R r c → ¬ (spriteCol vx c = col ∧ spriteRow vy r = row)) → e.pixel col row = d.pixel col row

/-- A lit pixel of `d` lies under a 1 bit of a sprite position of `R`. -/
def Hits (R : Nat → Nat → Prop) (bit : Nat → Nat → Bool) (vx vy : Byte) (d : Display) : Prop :=
  ∃ r c, R r c ∧ bit r c = true ∧ d.pixel (spriteCol vx c) (spriteRow vy r) = true

/-- The positions of a sprite: at most 15 rows of 8 columns. -/
def InSprite (R : Nat → Nat → Prop) : Prop := ∀ r c, R r c → r < 16 ∧ c < 8

/-- Positions of disjoint regions lie on different pixels (R111). -/
theorem disjoint_pixels {R Q : Nat → Nat → Prop} {vx vy : Byte} (hR : InSprite R) (hQ : InSprite Q)
    (hd : ∀ r c, R r c → ¬ Q r c) {r c : Nat} (h : R r c) (r' c' : Nat) (h' : Q r' c') :
    ¬ (spriteCol vx c' = spriteCol vx c ∧ spriteRow vy r' = spriteRow vy r) := by
  rintro ⟨h1, h2⟩
  obtain rfl := spriteCol_inj (hQ _ _ h').2 (hR _ _ h).2 h1
  obtain rfl := spriteRow_inj (hQ _ _ h').1 (hR _ _ h).1 h2
  exact hd _ _ h h'

/-- Drawing one region and then a disjoint one draws both. -/
theorem Drawn.trans {R Q : Nat → Nat → Prop} {bit : Nat → Nat → Bool} {vx vy : Byte} {d e f : Display}
    (h1 : Drawn R bit vx vy d e) (h2 : Drawn Q bit vx vy e f) (hR : InSprite R) (hQ : InSprite Q)
    (hd : ∀ r c, R r c → ¬ Q r c) : Drawn (fun r c => R r c ∨ Q r c) bit vx vy d f := by
  refine ⟨fun r c h => ?_, fun col row h => ?_⟩
  · rcases h with h | h
    · rw [h2.2 _ _ (disjoint_pixels hR hQ hd h), h1.1 r c h]
    · rw [h2.1 r c h, h1.2 _ _ (disjoint_pixels hQ hR (fun r c q p => hd r c p q) h)]
  · rw [h2.2 col row fun r c q => h r c (.inr q), h1.2 col row fun r c q => h r c (.inl q)]

/-- The hits of two disjoint regions drawn one after the other. -/
theorem Drawn.hits_or {R Q : Nat → Nat → Prop} {bit : Nat → Nat → Bool} {vx vy : Byte} {d e : Display}
    (h1 : Drawn R bit vx vy d e) (hR : InSprite R) (hQ : InSprite Q) (hd : ∀ r c, R r c → ¬ Q r c) :
    Hits (fun r c => R r c ∨ Q r c) bit vx vy d ↔ Hits R bit vx vy d ∨ Hits Q bit vx vy e := by
  have same : ∀ r c, Q r c →
      e.pixel (spriteCol vx c) (spriteRow vy r) = d.pixel (spriteCol vx c) (spriteRow vy r) := fun r c q =>
    h1.2 _ _ (disjoint_pixels hQ hR (fun r c q p => hd r c p q) q)
  constructor
  · rintro ⟨r, c, h | h, hb, hp⟩
    · exact .inl ⟨r, c, h, hb, hp⟩
    · exact .inr ⟨r, c, h, hb, by rw [same r c h, hp]⟩
  · rintro (⟨r, c, h, hb, hp⟩ | ⟨r, c, h, hb, hp⟩)
    · exact ⟨r, c, .inl h, hb, hp⟩
    · exact ⟨r, c, .inr h, hb, by rw [← same r c h, hp]⟩

/-- Drawing nothing. -/
theorem Drawn.empty {R : Nat → Nat → Prop} (hR : ∀ r c, ¬ R r c) (bit : Nat → Nat → Bool) (vx vy : Byte)
    (d : Display) : Drawn R bit vx vy d d := ⟨fun r c h => absurd h (hR r c), fun _ _ _ => rfl⟩

theorem Drawn.congr {R Q : Nat → Nat → Prop} {bit : Nat → Nat → Bool} {vx vy : Byte} {d e : Display}
    (h : Drawn R bit vx vy d e) (hq : ∀ r c, R r c ↔ Q r c) : Drawn Q bit vx vy d e := by
  have : R = Q := by funext r c; exact propext (hq r c)
  exact this ▸ h

theorem Hits.congr {R Q : Nat → Nat → Prop} {bit : Nat → Nat → Bool} {vx vy : Byte} {d : Display}
    (hq : ∀ r c, R r c ↔ Q r c) : Hits R bit vx vy d ↔ Hits Q bit vx vy d := by
  have : R = Q := by funext r c; exact propext (hq r c)
  rw [this]

/-! ## One pixel, one row, all rows -/

theorem drawPixel_spec (bit : Nat → Nat → Bool) (b vx vy : Byte) (r c : Nat) (hb : bit r c = spriteBit b c)
    (dh : Display × Bool) :
    Drawn (fun r' c' => r' = r ∧ c' = c) bit vx vy dh.1 (drawPixel b vx vy r c dh).1 ∧
    ((drawPixel b vx vy r c dh).2 = true ↔
      dh.2 = true ∨ Hits (fun r' c' => r' = r ∧ c' = c) bit vx vy dh.1) := by
  unfold drawPixel
  cases h : spriteBit b c
  · refine ⟨⟨?_, fun _ _ _ => rfl⟩, ?_⟩
    · rintro _ _ ⟨rfl, rfl⟩; simp [hb, h]
    · simp [Hits, hb, h]
  · refine ⟨⟨?_, fun col row hn => ?_⟩, ?_⟩
    · rintro _ _ ⟨rfl, rfl⟩; simp [hb, h]
    · simp [hn r c ⟨rfl, rfl⟩]
    · simp [Hits, hb, h]

theorem drawRow_spec (bit : Nat → Nat → Bool) (b vx vy : Byte) (r : Nat) (hr : r < 16)
    (hb : ∀ c, bit r c = spriteBit b c) (count c : Nat) (hc : c + count ≤ 8) (dh : Display × Bool) :
    Drawn (fun r' c' => r' = r ∧ c ≤ c' ∧ c' < c + count) bit vx vy dh.1 (drawRow b vx vy r count c dh).1 ∧
    ((drawRow b vx vy r count c dh).2 = true ↔
      dh.2 = true ∨ Hits (fun r' c' => r' = r ∧ c ≤ c' ∧ c' < c + count) bit vx vy dh.1) := by
  induction count generalizing c dh with
  | zero =>
    have h0 : ∀ r' c', ¬ (r' = r ∧ c ≤ c' ∧ c' < c + 0) := by omega
    exact ⟨Drawn.empty h0 _ _ _ _, by simp [drawRow, Hits]⟩
  | succ count ih =>
    obtain ⟨p1, p2⟩ := drawPixel_spec bit b vx vy r c (hb c) dh
    obtain ⟨q1, q2⟩ := ih (c + 1) (by omega) (drawPixel b vx vy r c dh)
    have hR : InSprite (fun r' c' => r' = r ∧ c' = c) := by intro r' c' h; omega
    have hQ : InSprite (fun r' c' => r' = r ∧ c + 1 ≤ c' ∧ c' < c + 1 + count) := by intro r' c' h; omega
    have hd : ∀ r' c', (r' = r ∧ c' = c) → ¬ (r' = r ∧ c + 1 ≤ c' ∧ c' < c + 1 + count) := by omega
    have he : ∀ r' c', ((r' = r ∧ c' = c) ∨ (r' = r ∧ c + 1 ≤ c' ∧ c' < c + 1 + count)) ↔
        (r' = r ∧ c ≤ c' ∧ c' < c + (count + 1)) := by omega
    refine ⟨(p1.trans q1 hR hQ hd).congr he, ?_⟩
    rw [drawRow, q2, p2, ← Hits.congr he, p1.hits_or hR hQ hd, or_assoc]

/-- The rows `r .. r + count - 1` of the sprite at `I`. -/
def spriteRows (r count : Nat) : Nat → Nat → Prop := fun r' c' => r ≤ r' ∧ r' < r + count ∧ c' < 8

/-- Everything drawing the rows does: all of them where their bytes lie below `0x1000`, with the hit of all; else
those that do, and the error at the first address beyond. -/
theorem drawRows_spec (vx vy : Byte) (count r : Nat) (hit : Bool) (s : State) (hr : r + count ≤ 16) :
    if count ≤ 4096 - s.dataAddr r then
      ∃ d hit', drawRows vx vy count r hit s = .ok ({ s with display := d }, hit') ∧
        Drawn (spriteRows r count) s.spriteBits vx vy s.display d ∧
        (hit' = true ↔ hit = true ∨ Hits (spriteRows r count) s.spriteBits vx vy s.display)
    else
      ∃ d, drawRows vx vy count r hit s = .error (.outOfBounds (max (s.dataAddr r) 4096), { s with display := d }) ∧
        Drawn (spriteRows r (4096 - s.dataAddr r)) s.spriteBits vx vy s.display d := by
  induction count generalizing r hit s with
  | zero =>
    have h0 : ∀ r' c', ¬ spriteRows r 0 r' c' := by intro r' c'; simp only [spriteRows]; omega
    simp only [Nat.zero_le, if_true]
    refine ⟨s.display, hit, rfl, Drawn.empty h0 _ _ _ _, ?_⟩
    simp only [Hits]
    constructor
    · exact .inl
    · rintro (h | ⟨r', c', h, -⟩)
      · exact h
      · exact absurd h (h0 _ _)
  | succ count ih =>
    rw [drawRows]
    by_cases h : s.dataAddr r < 4096
    · rw [State.memRead_of_lt h]
      obtain ⟨p1, p2⟩ := drawRow_spec s.spriteBits (s.mem.read (s.dataAddr r)) vx vy r (by omega)
        (fun _ => rfl) 8 0 (by omega) (s.display, hit)
      generalize hdh : drawRow (s.mem.read (s.dataAddr r)) vx vy r 8 0 (s.display, hit) = dh at p1 p2
      have ih' := ih (r + 1) dh.2 { s with display := dh.1 } (by omega)
      simp only [State.dataAddr_display, State.dataAddr_add] at ih'
      change if count ≤ 4096 - (s.dataAddr r + 1) then
          ∃ d hit', _ ∧ Drawn (spriteRows (r + 1) count) s.spriteBits vx vy dh.1 d ∧
            (hit' = true ↔ dh.2 = true ∨ Hits (spriteRows (r + 1) count) s.spriteBits vx vy dh.1)
        else ∃ d, _ ∧ Drawn (spriteRows (r + 1) (4096 - (s.dataAddr r + 1))) s.spriteBits vx vy dh.1 d at ih'
      have hR : InSprite (fun r' c' => r' = r ∧ 0 ≤ c' ∧ c' < 0 + 8) := by intro r' c' h; omega
      have join : ∀ n, n ≤ count → InSprite (spriteRows (r + 1) n) ∧
          (∀ r' c', (r' = r ∧ 0 ≤ c' ∧ c' < 0 + 8) → ¬ spriteRows (r + 1) n r' c') ∧
          (∀ r' c', ((r' = r ∧ 0 ≤ c' ∧ c' < 0 + 8) ∨ spriteRows (r + 1) n r' c') ↔ spriteRows r (n + 1) r' c') := by
        intro n hn
        refine ⟨?_, ?_, ?_⟩ <;> intro r' c' <;> simp only [spriteRows] <;> omega
      by_cases hc : count ≤ 4096 - (s.dataAddr r + 1)
      · rw [if_pos hc] at ih'
        rw [if_pos (by omega)]
        obtain ⟨d, hit', e, q1, q2⟩ := ih'
        obtain ⟨hQ, hd, he⟩ := join count le_rfl
        refine ⟨d, hit', ?_, (p1.trans q1 hR hQ hd).congr he, ?_⟩
        · simp only [hdh]; exact e
        · rw [q2, p2, ← Hits.congr he, p1.hits_or hR hQ hd, or_assoc]
      · rw [if_neg hc] at ih'
        rw [if_neg (by omega)]
        obtain ⟨d, e, q1⟩ := ih'
        have h2 : max (s.dataAddr r + 1) 4096 = max (s.dataAddr r) 4096 := by omega
        have h3 : 4096 - s.dataAddr r = 4096 - (s.dataAddr r + 1) + 1 := by omega
        obtain ⟨hQ, hd, he⟩ := join (4096 - (s.dataAddr r + 1)) (by omega)
        refine ⟨d, ?_, ?_⟩
        · rw [← h2]; simp only [hdh]; exact e
        · rw [h3]; exact (p1.trans q1 hR hQ hd).congr he
    · have h0 : 4096 - s.dataAddr r = 0 := by omega
      rw [State.memRead_of_ge (by omega), if_neg (by omega)]
      refine ⟨s.display, by rw [Nat.max_eq_left (by omega)], ?_⟩
      rw [h0]
      exact Drawn.empty (by intro r' c'; simp only [spriteRows]; omega) _ _ _ _

/-! ## The terms of the statements -/

theorem spritePixel_iff {vx vy : Byte} {r c : Nat} {col : Fin 64} {row : Fin 32} :
    SpritePixel vx vy r c col row ↔ spriteCol vx c = col ∧ spriteRow vy r = row := by
  simp only [SpritePixel, spriteCol, spriteRow, Fin.ext_iff, Fin.val_ofNat, eq_comm]

/-- R110, R111: rows drawn, said with the coordinates written out. -/
theorem Drawn.spriteDrawn {rows : Nat} {vx vy : Byte} {s t : State}
    (h : Drawn (spriteRows 0 rows) s.spriteBits vx vy s.display t.display) : SpriteDrawn rows vx vy s t := by
  refine ⟨fun r c col row hr hc hp => ?_, fun col row hn => h.2 col row fun r c q => ?_⟩
  · obtain ⟨rfl, rfl⟩ := spritePixel_iff.1 hp
    exact h.1 r c ⟨Nat.zero_le r, by omega, hc⟩
  · exact fun e => hn r c (by have := q.2.1; omega) q.2.2 (spritePixel_iff.2 e)

/-- R112: a hit, said with the coordinates written out. -/
theorem hits_iff_spriteHits {rows : Nat} {vx vy : Byte} {s : State} :
    Hits (spriteRows 0 rows) s.spriteBits vx vy s.display ↔ SpriteHits rows vx vy s := by
  constructor
  · rintro ⟨r, c, q, hb, hp⟩
    exact ⟨r, c, _, _, by have := q.2.1; omega, q.2.2, spritePixel_iff.2 ⟨rfl, rfl⟩, hb, hp⟩
  · rintro ⟨r, c, col, row, hr, hc, hq, hb, hp⟩
    obtain ⟨rfl, rfl⟩ := spritePixel_iff.1 hq
    exact ⟨r, c, ⟨Nat.zero_le r, by omega, hc⟩, hb, hp⟩

end Sys2Proof.Machine
end

