-- ==== Sys2Proof/Laws/Outcome.lean ====
section
/-! SUPPORT. What a step and the accesses of one instruction can end in, each said once; the frames of the shared
endings (an error raised, a jump, one register written); and the zero-extended operands as numbers. -/

namespace Sys2Proof.Machine

/-! ## The step -/

/-- R64: a step fetches, decodes and executes on the prepared state. -/
theorem step_eq (s : State) : step s = s.prepared.runInstruction := rfl

/-- R69: the timer phase does not change what is fetched. -/
@[simp] theorem State.prepared_fetch (s : State) : s.prepared.fetch = s.beginTurn.fetch := rfl

/-- R70: a step executes one instruction at most. -/
theorem State.Executes.unique {s : State} {i j : Instr} (hi : s.Executes i) (hj : s.Executes j) : i = j := by
  obtain ⟨_, _, fi, di⟩ := hi
  obtain ⟨_, _, fj, dj⟩ := hj
  cases fi.symm.trans fj
  exact Except.ok.inj (di.symm.trans dj)

/-- Everything a step can do: execute nothing and end in an error of the fetch or the decode on the prepared state, or
execute one instruction on it. -/
theorem step_cases {s t : State} (h : step s = .next t) :
    (∃ e, (∀ i, ¬ s.Executes i) ∧ t = s.prepared.raise e) ∨ ∃ i, s.Executes i ∧ exec i s.prepared = .next t := by
  rw [step_eq, State.runInstruction, State.prepared_fetch] at h
  cases hf : s.beginTurn.fetch with
  | error e =>
    simp only [hf] at h; cases h
    exact .inl ⟨e, (by rintro i ⟨_, _, f, -⟩; cases hf.symm.trans f), rfl⟩
  | ok b =>
    simp only [hf] at h
    cases hd : decode b.1 b.2 with
    | error e =>
      simp only [hd] at h; cases h
      exact .inl ⟨_, (by rintro i ⟨_, _, f, d⟩; cases hf.symm.trans f; cases hd.symm.trans d), rfl⟩
    | ok i => simp only [hd] at h; exact .inr ⟨i, ⟨_, _, hf, hd⟩, h⟩

/-! ## What the accesses leave but their own part of the state -/

theorem nibble_lt (x : Nibble) : x.toNat < 16 := x.isLt

/-- R102: a block store changes memory only, in both its ends. -/
theorem storeBytes_cases (bytes : List Byte) (k : Nat) (s : State) :
    (∃ m, storeBytes bytes k s = .ok { s with mem := m }) ∨
    ∃ e m, storeBytes bytes k s = .error (e, { s with mem := m }) := by
  rw [storeBytes_eq]
  split
  · exact .inl ⟨_, rfl⟩
  · exact .inr ⟨_, _, rfl⟩

/-- R108: a block load changes registers only, in both its ends. -/
theorem loadRegs_cases (count k : Nat) (s : State) (hk : k + count ≤ 16) :
    (∃ v, loadRegs count k s = .ok { s with v := v }) ∨
    ∃ e v, loadRegs count k s = .error (e, { s with v := v }) := by
  have h := loadRegs_spec count k s hk
  split at h
  · obtain ⟨t, e, l⟩ := h
    exact .inl ⟨t.v, by rw [e]; exact congrArg _ l.1⟩
  · obtain ⟨t, e, l⟩ := h
    exact .inr ⟨_, t.v, by rw [e]; exact congrArg (fun u => Except.error (_, u)) l.1⟩

/-- R110: drawing changes the display only, in both its ends. -/
theorem drawRows_cases (vx vy : Byte) (count r : Nat) (hit : Bool) (s : State) (hr : r + count ≤ 16) :
    (∃ d hit', drawRows vx vy count r hit s = .ok ({ s with display := d }, hit')) ∨
    ∃ e d, drawRows vx vy count r hit s = .error (e, { s with display := d }) := by
  have h := drawRows_spec vx vy count r hit s hr
  split at h
  · obtain ⟨d, hit', e, -⟩ := h
    exact .inl ⟨d, hit', e⟩
  · obtain ⟨d, e, -⟩ := h
    exact .inr ⟨_, d, e⟩

/-! ## The shared endings -/

/-- R125: how to show that an instruction raises an error. -/
theorem RaisesError.intro {i : Instr} {s u : State} {e : EngineError} (h : exec i s = .next (u.raise e))
    (hp : u.pc = s.pc) (hf : u.firstError = s.firstError) : RaisesError i s e (u.raise e) :=
  ⟨h, rfl, hp, by rw [State.raise_firstError, hf]⟩

/-- R125: raising an error changes nothing but the record of errors. -/
theorem State.raise_kept (s : State) (e : EngineError) : KeptExcept [.errors] s (s.raise e) := by
  intro p hp; cases p <;> simp_all [Same]

/-- R72: a jump changes nothing but `pc` and `result`. -/
theorem State.goTo_kept (s : State) (w : Word) : KeptExcept [] s (s.goTo w) := by
  intro p hp; cases p <;> simp_all [Same]

/-- R86: what an instruction with a plain result leaves. -/
theorem State.plainResult_spec (s : State) (x : Nibble) (r : Byte) :
    (s.plainResult x r).reg x = r ∧ RegsKeptExcept (fun q => q = x) s (s.plainResult x r) ∧
    KeptExcept [.regs] s (s.plainResult x r) ∧ (s.plainResult x r).pc = s.pc + 2 := by
  refine ⟨by simp [State.plainResult], fun q hq => by simp [State.plainResult, hq], fun p hp => ?_, rfl⟩
  cases p <;> simp_all [Same, State.plainResult]

/-- R86, D10: what an instruction with a flagged result leaves. -/
theorem State.flaggedResult_spec (s : State) (x : Nibble) (r f : Byte) :
    (x ≠ 15 → (s.flaggedResult x r f).reg x = r) ∧ (s.flaggedResult x r f).reg 15 = f ∧
    RegsKeptExcept (fun q => q = x ∨ q = 15) s (s.flaggedResult x r f) ∧
    KeptExcept [.regs] s (s.flaggedResult x r f) ∧ (s.flaggedResult x r f).pc = s.pc + 2 := by
  refine ⟨fun h => ?_, by simp [State.flaggedResult, flagReg], fun q hq => ?_, fun p hp => ?_, rfl⟩
  · simp [State.flaggedResult, flagReg]; exact fun e => absurd e h
  · simp only [not_or] at hq
    simp [State.flaggedResult, flagReg, hq]; exact fun e => absurd e hq.2
  · cases p <;> simp_all [Same, State.flaggedResult, State.setRegAndFlag]

/-! ## Operands as numbers -/

@[simp] theorem zextAddr_toNat (n : Addr) : (zextAddr n).toNat = n.toNat := by
  have := n.isLt; simp [zextAddr]; omega

@[simp] theorem zextByte_toNat (b : Byte) : (zextByte b).toNat = b.toNat := by
  have := b.isLt; simp [zextByte]; omega

@[simp] theorem State.regBlock_length (s : State) (x : Nibble) : (s.regBlock x).length = x.toNat + 1 := by
  simp [State.regBlock]

/-- R107: byte `r` of the block of `LD_I_VX` is register `r`. -/
theorem State.regBlock_get (s : State) {x r : Nibble} (h : r.toNat ≤ x.toNat) :
    (s.regBlock x)[r.toNat]? = some (s.reg r) := by
  have : (List.range (x.toNat + 1))[r.toNat]? = some r.toNat := List.getElem?_range (by omega)
  simp [State.regBlock, this, blockReg]

end Sys2Proof.Machine
end

