-- ==== Sys2Proof/Laws/PerInstr.lean ====
section
/-! SUPPORT. Said of every instruction: its encoding carries the fixed bits of its own row of the opcode map
(spec/30_encoding.md R51, R59). One lemma per constructor. -/

namespace Sys2Proof.Laws.RowMatch

/-- The word of the instruction matches the row that stands at its tag (R51, R54). -/
def Statement (i : Instr) : Prop := matchesRow (encode i) (opcodeMap.getD (tag i) (0, 0)) = true

theorem cls : Statement (.cls) := by rfl

theorem ret : Statement (.ret) := by rfl

theorem sys (nnn : Addr) : Statement (.sys nnn) := by
  show ((_ : Word) &&& _ == _) = true
  rw [encode]
  exact beq_iff_eq.2 (and_maskNnn _ _)

theorem jp (nnn : Addr) : Statement (.jp nnn) := by
  show ((_ : Word) &&& _ == _) = true
  rw [encode]
  exact beq_iff_eq.2 (and_maskNnn _ _)

theorem call (nnn : Addr) : Statement (.call nnn) := by
  show ((_ : Word) &&& _ == _) = true
  rw [encode]
  exact beq_iff_eq.2 (and_maskNnn _ _)

theorem seImm (x : Nibble) (kk : Byte) : Statement (.seImm x kk) := by
  show ((_ : Word) &&& _ == _) = true
  rw [encode]
  exact beq_iff_eq.2 (and_maskXkk _ _ _)

theorem sneImm (x : Nibble) (kk : Byte) : Statement (.sneImm x kk) := by
  show ((_ : Word) &&& _ == _) = true
  rw [encode]
  exact beq_iff_eq.2 (and_maskXkk _ _ _)

theorem seReg (x y : Nibble) : Statement (.seReg x y) := by
  show ((_ : Word) &&& _ == _) = true
  rw [encode]
  exact beq_iff_eq.2 (and_maskXy _ _ _ _)

theorem ldImm (x : Nibble) (kk : Byte) : Statement (.ldImm x kk) := by
  show ((_ : Word) &&& _ == _) = true
  rw [encode]
  exact beq_iff_eq.2 (and_maskXkk _ _ _)

theorem addImm (x : Nibble) (kk : Byte) : Statement (.addImm x kk) := by
  show ((_ : Word) &&& _ == _) = true
  rw [encode]
  exact beq_iff_eq.2 (and_maskXkk _ _ _)

theorem ldReg (x y : Nibble) : Statement (.ldReg x y) := by
  show ((_ : Word) &&& _ == _) = true
  rw [encode]
  exact beq_iff_eq.2 (and_maskXy _ _ _ _)

theorem or (x y : Nibble) : Statement (.or x y) := by
  show ((_ : Word) &&& _ == _) = true
  rw [encode]
  exact beq_iff_eq.2 (and_maskXy _ _ _ _)

theorem and (x y : Nibble) : Statement (.and x y) := by
  show ((_ : Word) &&& _ == _) = true
  rw [encode]
  exact beq_iff_eq.2 (and_maskXy _ _ _ _)

theorem xor (x y : Nibble) : Statement (.xor x y) := by
  show ((_ : Word) &&& _ == _) = true
  rw [encode]
  exact beq_iff_eq.2 (and_maskXy _ _ _ _)

theorem addReg (x y : Nibble) : Statement (.addReg x y) := by
  show ((_ : Word) &&& _ == _) = true
  rw [encode]
  exact beq_iff_eq.2 (and_maskXy _ _ _ _)

theorem sub (x y : Nibble) : Statement (.sub x y) := by
  show ((_ : Word) &&& _ == _) = true
  rw [encode]
  exact beq_iff_eq.2 (and_maskXy _ _ _ _)

theorem shr (x y : Nibble) : Statement (.shr x y) := by
  show ((_ : Word) &&& _ == _) = true
  rw [encode]
  exact beq_iff_eq.2 (and_maskXy _ _ _ _)

theorem subn (x y : Nibble) : Statement (.subn x y) := by
  show ((_ : Word) &&& _ == _) = true
  rw [encode]
  exact beq_iff_eq.2 (and_maskXy _ _ _ _)

theorem shl (x y : Nibble) : Statement (.shl x y) := by
  show ((_ : Word) &&& _ == _) = true
  rw [encode]
  exact beq_iff_eq.2 (and_maskXy _ _ _ _)

theorem sneReg (x y : Nibble) : Statement (.sneReg x y) := by
  show ((_ : Word) &&& _ == _) = true
  rw [encode]
  exact beq_iff_eq.2 (and_maskXy _ _ _ _)

theorem ldI (nnn : Addr) : Statement (.ldI nnn) := by
  show ((_ : Word) &&& _ == _) = true
  rw [encode]
  exact beq_iff_eq.2 (and_maskNnn _ _)

theorem jpV0 (nnn : Addr) : Statement (.jpV0 nnn) := by
  show ((_ : Word) &&& _ == _) = true
  rw [encode]
  exact beq_iff_eq.2 (and_maskNnn _ _)

theorem rnd (x : Nibble) (kk : Byte) : Statement (.rnd x kk) := by
  show ((_ : Word) &&& _ == _) = true
  rw [encode]
  exact beq_iff_eq.2 (and_maskXkk _ _ _)

theorem drw (x y n : Nibble) : Statement (.drw x y n) := by
  show ((_ : Word) &&& _ == _) = true
  rw [encode]
  exact beq_iff_eq.2 (and_maskXyn _ _ _ _)

theorem skp (x : Nibble) : Statement (.skp x) := by
  show ((_ : Word) &&& _ == _) = true
  rw [encode]
  exact beq_iff_eq.2 (and_maskX _ _ _)

theorem sknp (x : Nibble) : Statement (.sknp x) := by
  show ((_ : Word) &&& _ == _) = true
  rw [encode]
  exact beq_iff_eq.2 (and_maskX _ _ _)

theorem ldVxDt (x : Nibble) : Statement (.ldVxDt x) := by
  show ((_ : Word) &&& _ == _) = true
  rw [encode]
  exact beq_iff_eq.2 (and_maskX _ _ _)

theorem ldVxK (x : Nibble) : Statement (.ldVxK x) := by
  show ((_ : Word) &&& _ == _) = true
  rw [encode]
  exact beq_iff_eq.2 (and_maskX _ _ _)

theorem ldDtVx (x : Nibble) : Statement (.ldDtVx x) := by
  show ((_ : Word) &&& _ == _) = true
  rw [encode]
  exact beq_iff_eq.2 (and_maskX _ _ _)

theorem ldStVx (x : Nibble) : Statement (.ldStVx x) := by
  show ((_ : Word) &&& _ == _) = true
  rw [encode]
  exact beq_iff_eq.2 (and_maskX _ _ _)

theorem addI (x : Nibble) : Statement (.addI x) := by
  show ((_ : Word) &&& _ == _) = true
  rw [encode]
  exact beq_iff_eq.2 (and_maskX _ _ _)

theorem ldF (x : Nibble) : Statement (.ldF x) := by
  show ((_ : Word) &&& _ == _) = true
  rw [encode]
  exact beq_iff_eq.2 (and_maskX _ _ _)

theorem ldB (x : Nibble) : Statement (.ldB x) := by
  show ((_ : Word) &&& _ == _) = true
  rw [encode]
  exact beq_iff_eq.2 (and_maskX _ _ _)

theorem ldIVx (x : Nibble) : Statement (.ldIVx x) := by
  show ((_ : Word) &&& _ == _) = true
  rw [encode]
  exact beq_iff_eq.2 (and_maskX _ _ _)

theorem ldVxI (x : Nibble) : Statement (.ldVxI x) := by
  show ((_ : Word) &&& _ == _) = true
  rw [encode]
  exact beq_iff_eq.2 (and_maskX _ _ _)

end Sys2Proof.Laws.RowMatch
end

