-- ==== Sys2Proof/Tests/Slice0.lean ====
section
/-! SUPPORT. The model's own tests: ill-formed instructions refused, words written out bit by bit from the spec's
encoding, single steps with the results of spec/95_test_vectors.md, and for every obligation with hypotheses a named
witness of them. -/

namespace Sys2Proof.Tests

open Sys2Proof Sys2Proof.Machine

/-! ## Well-formedness (R53) -/

theorem test_ill_formed_sys : ¬ WellFormed (.sys 0x0E0) ∧ ¬ WellFormed (.sys 0x0EE) := by decide
theorem test_well_formed : WellFormed (.sys 0x0E1) ∧ WellFormed (.sys 0) ∧ WellFormed .cls ∧ WellFormed .ret := by
  decide

/-! ## Decoding (95 section 2.1) -/

/-- 95 section 2.1: 2.1.1, 2.1.2, 2.1.3, 2.1.4, 2.1.5, 2.1.6, 2.1.7, 2.1.8. -/
theorem test_decode_zero :
    decodeWord 0b0000000011100000 = .ok .cls ∧
    decodeWord 0b0000000011101110 = .ok .ret ∧
    decodeWord 0b0000000000000000 = .ok (.sys 0x000) ∧
    decodeWord 0b0000000011100001 = .ok (.sys 0x0E1) ∧
    decodeWord 0b0000000011101111 = .ok (.sys 0x0EF) ∧
    decodeWord 0b0000000011011111 = .ok (.sys 0x0DF) ∧
    decodeWord 0b0000000111100000 = .ok (.sys 0x1E0) ∧
    decodeWord 0b0000111111111111 = .ok (.sys 0xFFF) := by decide

/-- 95 section 2.1: 2.1.9, 2.1.10, 2.1.11, 2.1.38. -/
theorem test_decode_flow :
    decodeWord 0b0001000000000000 = .ok (.jp 0x000) ∧
    decodeWord 0b0001111111111111 = .ok (.jp 0xFFF) ∧
    decodeWord 0b0010101010111100 = .ok (.call 0xABC) ∧
    decodeWord 0b1011000100100011 = .ok (.jpV0 0x123) := by decide

/-- 95 section 2.1: 2.1.12, 2.1.13, 2.1.14, 2.1.34. -/
theorem test_decode_skip :
    decodeWord 0b0011101001000010 = .ok (.seImm 10 0x42) ∧
    decodeWord 0b0100111100000000 = .ok (.sneImm 15 0x00) ∧
    decodeWord 0b0101101010110000 = .ok (.seReg 10 11) ∧
    decodeWord 0b1001110011010000 = .ok (.sneReg 12 13) := by decide

/-- 95 section 2.1: 2.1.15, 2.1.16, 2.1.28, 2.1.29, 2.1.30, 2.1.31, 2.1.33, 2.1.35, 2.1.44, 2.1.45, 2.1.46, 2.1.47, 2.1.59, 2.1.60, 2.1.61, 2.1.62, 2.1.63, 2.1.64, 2.1.65. -/
theorem test_decode_invalid :
    decodeWord 0b0101101010110001 = .error (.invalidInstruction 0x5 0xA 0xB 0x1) ∧
    decodeWord 0b0101101010111111 = .error (.invalidInstruction 0x5 0xA 0xB 0xF) ∧
    decodeWord 0b1000000100101000 = .error (.invalidInstruction 0x8 0x1 0x2 0x8) ∧
    decodeWord 0b1000000100101001 = .error (.invalidInstruction 0x8 0x1 0x2 0x9) ∧
    decodeWord 0b1000000100101010 = .error (.invalidInstruction 0x8 0x1 0x2 0xA) ∧
    decodeWord 0b1000000100101101 = .error (.invalidInstruction 0x8 0x1 0x2 0xD) ∧
    decodeWord 0b1000000100101111 = .error (.invalidInstruction 0x8 0x1 0x2 0xF) ∧
    decodeWord 0b1001110011010001 = .error (.invalidInstruction 0x9 0xC 0xD 0x1) ∧
    decodeWord 0b1110000010011111 = .error (.invalidInstruction 0xE 0x0 0x9 0xF) ∧
    decodeWord 0b1110000010100000 = .error (.invalidInstruction 0xE 0x0 0xA 0x0) ∧
    decodeWord 0b1110000110011101 = .error (.invalidInstruction 0xE 0x1 0x9 0xD) ∧
    decodeWord 0b1110000000000000 = .error (.invalidInstruction 0xE 0x0 0x0 0x0) ∧
    decodeWord 0b1111000000000000 = .error (.invalidInstruction 0xF 0x0 0x0 0x0) ∧
    decodeWord 0b1111000000001000 = .error (.invalidInstruction 0xF 0x0 0x0 0x8) ∧
    decodeWord 0b1111000000011111 = .error (.invalidInstruction 0xF 0x0 0x1 0xF) ∧
    decodeWord 0b1111000001110101 = .error (.invalidInstruction 0xF 0x0 0x7 0x5) ∧
    decodeWord 0b1111000010000101 = .error (.invalidInstruction 0xF 0x0 0x8 0x5) ∧
    decodeWord 0b1111000011111111 = .error (.invalidInstruction 0xF 0x0 0xF 0xF) ∧
    decodeWord 0b1111111111111111 = .error (.invalidInstruction 0xF 0xF 0xF 0xF) := by decide

/-- 95 section 2.1: 2.1.17, 2.1.18, 2.1.19. -/
theorem test_decode_load_imm :
    decodeWord 0b0110000000000101 = .ok (.ldImm 0 0x05) ∧
    decodeWord 0b0110000111111111 = .ok (.ldImm 1 0xFF) ∧
    decodeWord 0b0111111010000000 = .ok (.addImm 14 0x80) := by decide

/-- 95 section 2.1: 2.1.20, 2.1.21, 2.1.22, 2.1.23, 2.1.24, 2.1.25, 2.1.26, 2.1.27, 2.1.32. -/
theorem test_decode_alu :
    decodeWord 0b1000000100100000 = .ok (.ldReg 1 2) ∧
    decodeWord 0b1000000100100001 = .ok (.or 1 2) ∧
    decodeWord 0b1000000100100010 = .ok (.and 1 2) ∧
    decodeWord 0b1000000100100011 = .ok (.xor 1 2) ∧
    decodeWord 0b1000000000010100 = .ok (.addReg 0 1) ∧
    decodeWord 0b1000000100100101 = .ok (.sub 1 2) ∧
    decodeWord 0b1000000100100110 = .ok (.shr 1 2) ∧
    decodeWord 0b1000000100100111 = .ok (.subn 1 2) ∧
    decodeWord 0b1000000100101110 = .ok (.shl 1 2) := by decide

/-- 95 section 2.1: 2.1.36, 2.1.37. -/
theorem test_decode_index :
    decodeWord 0b1010000000000000 = .ok (.ldI 0x000) ∧
    decodeWord 0b1010111111111111 = .ok (.ldI 0xFFF) := by decide

/-- 95 section 2.1: 2.1.39. -/
theorem test_decode_rnd :
    decodeWord 0b1100001111110000 = .ok (.rnd 3 0xF0) := by decide

/-- 95 section 2.1: 2.1.40, 2.1.41. -/
theorem test_decode_draw :
    decodeWord 0b1101000000000000 = .ok (.drw 0 0 0) ∧
    decodeWord 0b1101000100101111 = .ok (.drw 1 2 15) := by decide

/-- 95 section 2.1: 2.1.42, 2.1.43, 2.1.48. -/
theorem test_decode_key :
    decodeWord 0b1110000010011110 = .ok (.skp 0) ∧
    decodeWord 0b1110111110100001 = .ok (.sknp 15) ∧
    decodeWord 0b1110000110100001 = .ok (.sknp 1) := by decide

/-- 95 section 2.1: 2.1.49, 2.1.50, 2.1.51, 2.1.52, 2.1.53, 2.1.54, 2.1.55, 2.1.56, 2.1.57, 2.1.58. -/
theorem test_decode_f_forms :
    decodeWord 0b1111000000000111 = .ok (.ldVxDt 0) ∧
    decodeWord 0b1111000100001010 = .ok (.ldVxK 1) ∧
    decodeWord 0b1111001000010101 = .ok (.ldDtVx 2) ∧
    decodeWord 0b1111001100011000 = .ok (.ldStVx 3) ∧
    decodeWord 0b1111010000011110 = .ok (.addI 4) ∧
    decodeWord 0b1111010100101001 = .ok (.ldF 5) ∧
    decodeWord 0b1111011000110011 = .ok (.ldB 6) ∧
    decodeWord 0b1111011101010101 = .ok (.ldIVx 7) ∧
    decodeWord 0b1111100001100101 = .ok (.ldVxI 8) ∧
    decodeWord 0b1111111101100101 = .ok (.ldVxI 15) := by decide

/-- R59: the encoding of the spec's two worked round trips. -/
theorem test_encode : encode (.drw 1 2 15) = 0xD12F ∧ encode (.sys 0x0E1) = 0x00E1 := by decide

/-- The words of the opcode table as the table numbers their bits, one word of 16 bits with its high byte first. -/
theorem test_table_word : decodeTableWord 16 0x812E = some (.shl 1 2) ∧ decodeTableWord 16 0x812D = none := by decide

/-! ## Small states -/

/-- After reset, with one turn of the host known: no operation before the `advance`, `elapsed` and `rnd` as given. -/
def turn (elapsed : Nat) (rnd : Byte) : State := { State.reset with script := [⟨[], elapsed, rnd⟩] }

/-- `s` with one turn of the host known: the operations given, then `advance(0, 0)`. -/
def hosted (ops : List HostOp) (s : State) : State := { s with script := [⟨ops, 0, 0⟩] }

/-- A program of four bytes: `LD_IMM V0, 0x05`, `LD_IMM V1, 0x03`, the head of the spec's P1. -/
def program : Program := ⟨[0x60, 0x05, 0x61, 0x03], by decide⟩

/-- The state the vectors start from: `elapsed = 0`, `rnd = 0`. -/
def base : State := turn 0 0

/-- `s` with the registers of the list set. -/
def regs (s : State) (l : List (Nibble × Byte)) : State := l.foldl (fun s r => s.setReg r.1 r.2) s

/-- `s` with the bytes of the list stored at `a` on. -/
def bytes (s : State) (a : Nat) (l : List Byte) : State := { s with mem := s.mem.writeBlock a l }

/-- `s` with the keys of the list pressed. -/
def keys (s : State) (l : List Nat) : State := s.setKeys (Vector.ofFn fun k => l.contains k.val)

/-- `s` with the pixels of these linear indices lit. -/
def lit (s : State) (l : List Nat) : State :=
  { s with display := l.foldl (fun d k => d.toggle (Fin.ofNat 64 (k % 64)) (Fin.ofNat 32 (k / 64))) s.display }

/-- The pixel of this linear index (R24). -/
def pix (s : State) (k : Nat) : Bool := s.display.pixel (Fin.ofNat 64 (k % 64)) (Fin.ofNat 32 (k / 64))

/-- One step on `s` with the word `w` placed at `pc` leaves a state of which `p` holds. -/
def after (w : Nat) (s : State) (p : State → Bool) : Bool :=
  match step (s.withFetchWord 16 w) with
  | .next t => p t
  | _ => false

/-- One step on `s` leaves a state of which `p` holds. -/
def steps (s : State) (p : State → Bool) : Bool :=
  match step s with
  | .next t => p t
  | _ => false

/-- The step returned `Ok` and left this `pc`. -/
def okAt (t : State) (pc : Word) : Bool := t.result == .ok && t.pc == pc

/-- The step returned this error and left this `pc`. -/
def errAt (t : State) (e : EngineError) (pc : Word) : Bool :=
  t.result == .error e && t.pc == pc && t.firstError == some e

/-! ## Control transfer (95 section 2.2) -/

/-- 95 vector 2.2.16. -/
theorem test_sys :
    after 0x0FFF { base with pc := 0x400 } (fun t =>
      errAt t (.unsupportedExternalCall 0xFFF) 0x400) = true := by
  decide

/-- 95 vector 2.2.9. -/
theorem test_ret_top_of_two :
    after 0x00EE { base with pc := 0x300, stack := [0x1000, 0x0204] } (fun t =>
      okAt t 0x1000 && t.stack == [0x0204]) = true := by
  decide

/-- 95 vector 2.2.10, S8. -/
theorem test_ret_empty : after 0x00EE base (fun t => errAt t .noReturnAddress 0x200) = true := by decide

/-- 95 vector 2.2.3. -/
theorem test_jp : after 0x1FFF base (fun t => okAt t 0xFFF) = true := by decide

/-- 95 vector 2.2.5. -/
theorem test_call :
    after 0x2300 { base with pc := 0x202 } (fun t =>
      okAt t 0x300 && t.stack == [0x204]) = true := by
  decide

/-- 95 vector 2.2.6. -/
theorem test_call_at_the_end :
    after 0x2FFE { base with pc := 0xFFE } (fun t =>
      okAt t 0xFFE && t.stack == [0x1000]) = true := by
  decide

/-- 95 vector 2.2.12. -/
theorem test_jp_v0_unmasked : after 0xBFFF (regs base [(0, 0xFF)]) (fun t => okAt t 0x10FE) = true := by decide

/-- 95 vector 2.2.13. -/
theorem test_jp_v0_not_v2 :
    after 0xB2FF (regs base [(0, 0x01), (2, 0x55)]) (fun t =>
      okAt t 0x300) = true := by
  decide

/-! ## Skips (95 section 2.3) -/

/-- 95 vector 2.3.1. -/
theorem test_se_imm : after 0x3A42 (regs base [(10, 0x42)]) (fun t => okAt t 0x204) = true := by decide

/-- 95 vector 2.3.13. -/
theorem test_se_imm_off_the_end : after 0x3000 { base with pc := 0xFFE } (fun t => okAt t 0x1002) = true := by decide

/-- 95 vector 2.3.3. -/
theorem test_sne_imm : after 0x4A42 (regs base [(10, 0x42)]) (fun t => okAt t 0x202) = true := by decide

/-- 95 vector 2.3.4. -/
theorem test_sne_imm_taken : after 0x4A42 (regs base [(10, 0x43)]) (fun t => okAt t 0x204) = true := by decide

/-- 95 vector 2.3.6. -/
theorem test_se_reg : after 0x5120 (regs base [(1, 0x07), (2, 0x08)]) (fun t => okAt t 0x202) = true := by decide

/-- 95 vector 2.3.7. -/
theorem test_se_reg_same : after 0x5330 (regs base [(3, 0x99)]) (fun t => okAt t 0x204) = true := by decide

/-- 95 vector 2.3.9. -/
theorem test_sne_reg : after 0x9120 (regs base [(1, 0x07), (2, 0x08)]) (fun t => okAt t 0x204) = true := by decide

/-- 95 vector 2.3.10. -/
theorem test_sne_reg_same : after 0x9330 (regs base [(3, 0x99)]) (fun t => okAt t 0x202) = true := by decide

/-! ## Registers and ALU (95 section 2.4) -/

/-- 95 vector 2.4.2. -/
theorem test_ld_imm : after 0x6FAB base (fun t => okAt t 0x202 && t.reg 15 == 0xAB) = true := by decide

/-- 95 vector 2.4.3. -/
theorem test_add_imm_wraps :
    after 0x7205 (regs base [(2, 0xFE), (15, 0x01)]) (fun t =>
      okAt t 0x202 && t.reg 2 == 0x03 && t.reg 15 == 0x01) = true := by
  decide

/-- 95 vector 2.4.6. -/
theorem test_ld_reg :
    after 0x8010 (regs base [(1, 0x33)]) (fun t =>
      okAt t 0x202 && t.reg 0 == 0x33 && t.reg 1 == 0x33) = true := by
  decide

/-- 95 vector 2.4.8. -/
theorem test_or :
    after 0x8011 (regs base [(0, 0xF0), (1, 0x0C), (15, 0x01)]) (fun t =>
      okAt t 0x202 && t.reg 0 == 0xFC && t.reg 15 == 0x01) = true := by
  decide

/-- 95 vector 2.4.9. -/
theorem test_and :
    after 0x8012 (regs base [(0, 0xF0), (1, 0x3C)]) (fun t =>
      okAt t 0x202 && t.reg 0 == 0x30 && t.reg 1 == 0x3C) = true := by
  decide

/-- 95 vector 2.4.10. -/
theorem test_xor :
    after 0x8013 (regs base [(0, 0xF0), (1, 0x3C)]) (fun t =>
      okAt t 0x202 && t.reg 0 == 0xCC && t.reg 15 == 0) = true := by
  decide

/-- 95 vector 2.4.13. -/
theorem test_add_reg_carry :
    after 0x8014 (regs base [(0, 0xFF), (1, 0x01)]) (fun t =>
      okAt t 0x202 && t.reg 0 == 0 && t.reg 15 == 1) = true := by
  decide

/-- 95 vector 2.4.19. -/
theorem test_add_reg_into_vf :
    after 0x8F14 (regs base [(15, 0xFF), (1, 0x03)]) (fun t =>
      okAt t 0x202 && t.reg 15 == 1) = true := by
  decide

/-- 95 vector 2.4.22. -/
theorem test_sub_borrow :
    after 0x8015 (regs base [(0, 0x05), (1, 0x07)]) (fun t =>
      okAt t 0x202 && t.reg 0 == 0xFE && t.reg 15 == 0) = true := by
  decide

/-- 95 vector 2.4.23. -/
theorem test_sub_equal :
    after 0x8015 (regs base [(0, 0x05), (1, 0x05)]) (fun t =>
      okAt t 0x202 && t.reg 0 == 0 && t.reg 15 == 1) = true := by
  decide

/-- 95 vector 2.4.29. -/
theorem test_subn :
    after 0x8017 (regs base [(0, 0x05), (1, 0x07)]) (fun t =>
      okAt t 0x202 && t.reg 0 == 0x02 && t.reg 15 == 1) = true := by
  decide

/-- 95 vector 2.4.30. -/
theorem test_subn_borrow :
    after 0x8017 (regs base [(0, 0x07), (1, 0x05)]) (fun t =>
      okAt t 0x202 && t.reg 0 == 0xFE && t.reg 15 == 0) = true := by
  decide

/-- 95 vector 2.4.33. -/
theorem test_shr_reads_vy :
    after 0x8016 (regs base [(0, 0xAA), (1, 0x05)]) (fun t =>
      okAt t 0x202 && t.reg 0 == 0x02 && t.reg 15 == 1) = true := by
  decide

/-- 95 vector 2.4.38. -/
theorem test_shr_into_vf :
    after 0x8F16 (regs base [(1, 0x02)]) (fun t =>
      okAt t 0x202 && t.reg 15 == 0) = true := by
  decide

/-- 95 vector 2.4.40. -/
theorem test_shl :
    after 0x801E (regs base [(1, 0x81)]) (fun t =>
      okAt t 0x202 && t.reg 0 == 0x02 && t.reg 15 == 1) = true := by
  decide

/-- 95 vector 2.4.41. -/
theorem test_shl_no_carry :
    after 0x801E (regs base [(1, 0x40)]) (fun t =>
      okAt t 0x202 && t.reg 0 == 0x80 && t.reg 15 == 0) = true := by
  decide

/-- 95 vector 2.4.45. -/
theorem test_rnd : after 0xC30F (turn 0 0xB7) (fun t => okAt t 0x202 && t.reg 3 == 0x07) = true := by decide

/-! ## Index register and memory (95 sections 2.5 and 2.9) -/

/-- 95 vector 2.5.2. -/
theorem test_ld_i : after 0xAFFF base (fun t => okAt t 0x202 && t.i == 0xFFF) = true := by decide

/-- 95 vector 2.5.9. -/
theorem test_add_i_wraps :
    after 0xF21E (regs { base with i := 0xFFFF } [(2, 0x02)]) (fun t =>
      okAt t 0x202 && t.i == 1 && t.reg 15 == 1) = true := by
  decide

/-- 95 vector 2.5.7. -/
theorem test_add_i_in_range :
    after 0xF21E (regs { base with i := 0xF00 } [(2, 0xFF)]) (fun t =>
      okAt t 0x202 && t.i == 0xFFF && t.reg 15 == 0) = true := by
  decide

/-- 95 vector 2.5.12. -/
theorem test_ld_f : after 0xF429 (regs base [(4, 0x0A)]) (fun t => okAt t 0x202 && t.i == 0x32) = true := by decide

/-- 95 vector 2.5.16. -/
theorem test_ld_f_unmasked :
    after 0xF429 (regs base [(4, 0xFF)]) (fun t =>
      okAt t 0x202 && t.i == 0x4FB) = true := by
  decide

/-- 95 vector 2.5.17. -/
theorem test_ld_b :
    after 0xF533 (regs { base with i := 0x300 } [(5, 0xEA)]) (fun t =>
      okAt t 0x202 && t.mem.read 0x300 == 2 && t.mem.read 0x301 == 3 && t.mem.read 0x302 == 4) = true := by
  decide

/-- 95 vector 2.9p.1. -/
theorem test_ld_b_off_the_end :
    after 0xF533 (regs { base with i := 0xFFE } [(5, 0xEA)]) (fun t =>
      errAt t (.outOfBounds 0x1000) 0x200 && t.mem.read 0xFFE == 2 && t.mem.read 0xFFF == 3) = true := by
  decide

/-- 95 vector 2.5.22. -/
theorem test_ld_i_vx :
    after 0xF155 (regs { base with i := 0x400 } [(0, 0x11), (1, 0x22), (2, 0x33)]) (fun t =>
      okAt t 0x202 && t.mem.read 0x400 == 0x11 && t.mem.read 0x401 == 0x22 && t.mem.read 0x402 == 0 &&
      t.i == 0x400) = true := by
  decide

/-- 95 vector 2.9p.5. -/
theorem test_ld_i_vx_off_the_end :
    after 0xF355 (regs { base with i := 0xFFE } [(0, 0xA0), (1, 0xA1), (2, 0xA2), (3, 0xA3)]) (fun t =>
      errAt t (.outOfBounds 0x1000) 0x200 && t.mem.read 0xFFE == 0xA0 && t.mem.read 0xFFF == 0xA1) = true := by
  decide

/-- 95 vector 2.5.25. -/
theorem test_ld_vx_i :
    after 0xF265 (bytes { base with i := 0x400 } 0x400 [0xAA, 0xBB, 0xCC, 0xDD]) (fun t =>
      okAt t 0x202 && t.reg 0 == 0xAA && t.reg 1 == 0xBB && t.reg 2 == 0xCC && t.reg 3 == 0) = true := by
  decide

/-- 95 vector 2.9p.7. -/
theorem test_ld_vx_i_off_the_end :
    after 0xF365 (regs (bytes { base with i := 0xFFE } 0xFFE [0xB0, 0xB1]) [(2, 0x22), (3, 0x33)]) (fun t =>
      errAt t (.outOfBounds 0x1000) 0x200 && t.reg 0 == 0xB0 && t.reg 1 == 0xB1 && t.reg 2 == 0x22 &&
      t.reg 3 == 0x33) = true := by
  decide

/-! ## Display (95 sections 2.6 and 2.9) -/

/-- 95 vector 2.6.1. -/
theorem test_cls :
    after 0x00E0 (regs (lit base [63, 2047]) [(15, 1)]) (fun t =>
      okAt t 0x202 && !pix t 63 && !pix t 2047 && t.reg 15 == 1) = true := by
  decide

/-- 95 vector 2.6.9. -/
theorem test_drw_wraps :
    after 0xD122 (regs (bytes { base with i := 0x300 } 0x300 [0xC0, 0xC0]) [(1, 0x3F), (2, 0x1F)]) (fun t =>
      okAt t 0x202 && pix t 0 && pix t 63 && pix t 1984 && pix t 2047 && !pix t 1 && t.reg 15 == 0) = true := by
  decide

/-- 95 vector 2.6.15. -/
theorem test_drw_collision :
    after 0xD0F1 (regs (lit (bytes { base with i := 0x300 } 0x300 [0x80]) [128]) [(15, 2)]) (fun t =>
      okAt t 0x202 && !pix t 128 && t.reg 15 == 1) = true := by
  decide

/-! ## Timers and keypad (95 sections 2.7 and 2.8) -/

/-- 95 vector 2.7.14. -/
theorem test_ld_vx_dt :
    after 0xF007 { turn 1000000 0 with dt := 3, acc := 16000000 } (fun t =>
      okAt t 0x202 && t.reg 0 == 2 && t.dt == 2 && t.acc == 0) = true := by
  decide

/-- 95 vector 2.7.15. -/
theorem test_ld_dt_vx :
    after 0xF015 (regs { turn 1000000 0 with dt := 1, acc := 16000000 } [(0, 0x0A)]) (fun t =>
      okAt t 0x202 && t.dt == 0x0A && t.acc == 0) = true := by
  decide

/-- 95 vector 2.8.5. -/
theorem test_ld_st_vx :
    after 0xF118 (regs base [(1, 8)]) (fun t =>
      okAt t 0x202 && t.st == 8 && t.dt == 0) = true := by
  decide

/-- 95 vector 2.8.7. -/
theorem test_skp : after 0xE29E (keys (regs base [(2, 7)]) [2]) (fun t => okAt t 0x202) = true := by decide

/-- 95 vector 2.8.16. -/
theorem test_skp_out_of_range :
    after 0xE29E (keys (regs base [(2, 0x10)]) [0]) (fun t =>
      errAt t (.outOfBounds 0x10) 0x200) = true := by
  decide

/-- 95 vector 2.8.8. -/
theorem test_sknp : after 0xE2A1 (regs base [(2, 7)]) (fun t => okAt t 0x204) = true := by decide

/-- 95 vector 2.8.17. -/
theorem test_sknp_out_of_range :
    after 0xE2A1 (regs base [(2, 0xFF)]) (fun t =>
      errAt t (.outOfBounds 0xFF) 0x200) = true := by
  decide

/-- 95 vector 2.7.19. -/
theorem test_ld_vx_k_stalls :
    after 0xF00A { turn 17000000 0 with dt := 3 } (fun t =>
      okAt t 0x200 && t.dt == 2) = true := by
  decide

/-- 95 vector 2.8.11. -/
theorem test_ld_vx_k : after 0xF60A (keys base [9, 3]) (fun t => okAt t 0x202 && t.reg 6 == 3) = true := by decide

/-! ## The step, its errors and its timer phase (95 sections 2.7 and 2.9) -/

/-- 95 vector 2.7.18. -/
theorem test_invalid_word :
    after 0x5001 { turn 5 0 with dt := 3, acc := 5 } (fun t =>
      errAt t (.invalidInstruction 5 0 0 1) 0x200 && t.acc == 10 && t.dt == 3) = true := by
  decide

/-- 95 vector 2.9.1: the last fetchable address. -/
theorem test_fetch_last : steps (bytes { base with pc := 0xFFE } 0xFFE [0x12, 0x00]) (fun t => okAt t 0x200) = true := by
  decide

/-- 95 vector 2.9.6: a fetch error after a committed timer phase. -/
theorem test_fetch_error :
    steps { turn 17000000 0 with pc := 0xFFF, dt := 2 } (fun t =>
      errAt t (.outOfBounds 0x1000) 0xFFF && t.dt == 1) = true := by
  decide

/-- 95 vector 2.9.5: an odd `pc`, the bytes big-endian (R32). -/
theorem test_odd_pc :
    steps (bytes { base with pc := 0x201 } 0x201 [0x61, 0x07]) (fun t => okAt t 0x203 && t.reg 1 == 7) = true := by
  decide

/-- 95 vectors 2.7.1 and 2.7.2: the inclusive threshold of one sixtieth of a second. -/
theorem test_timer_threshold :
    ({ State.reset with dt := 5, st := 1 }.timerPhase 16666667).dt = 4 ∧
    ({ State.reset with dt := 5, st := 1 }.timerPhase 16666667).st = 0 ∧
    ({ State.reset with dt := 5, st := 1 }.timerPhase 16666666).dt = 5 ∧
    ({ State.reset with dt := 5, st := 1 }.timerPhase 16666666).acc = 16666666 := by decide

/-- R145: a program is loaded at `0x200`. -/
theorem test_load :
    (match State.reset.load [0x60, 0x05] with
      | .next t => t.mem.read 0x200 == 0x60 && t.mem.read 0x201 == 0x05 && t.pc == 0x200
      | _ => false) = true := by decide

/-- A step that leaves a state of which `p` holds answers a next state. -/
theorem next_of_steps {s : State} {p : State → Bool} (h : steps s p = true) : ∃ t, step s = .next t ∧ p t = true := by
  unfold steps at h
  split at h
  · exact ⟨_, ‹_›, h⟩
  · exact Bool.noConfusion h

/-- R149, 95 program P1: a load between two calls is seen by the next fetch. -/
theorem test_turn_loads : steps (hosted [.load program] base) (fun t => okAt t 0x202 && t.reg 0 == 5) = true := by decide

/-- R140, R149: a reset, a load and a key vector in one turn, on a machine that has run and failed. -/
theorem test_turn_resets :
    steps (hosted [.reset, .load program, .setKeys (Vector.replicate 16 true)]
      { regs base [(0, 9)] with pc := 0xFFF, stack := [2], dt := 7, firstError := some .noReturnAddress }) (fun t =>
        okAt t 0x202 && t.reg 0 == 5 && t.stack == [] && t.dt == 0 && t.keyDown 15 &&
        t.firstError == some .noReturnAddress) = true := by
  decide

/-! ## Witnesses: for every obligation with hypotheses, concrete values that meet them -/

/-- A turn that does every operation but `load`. -/
theorem witness_EmptyMachineReportsUnsupportedCall :
    ∀ p, HostOp.load p ∉ (⟨[.reset, .setKeys (Vector.replicate 16 true), .display, .inspect], 5, 7⟩ : HostTurn).ops := by
  simp

theorem witness_EveryWellFormedInstructionDecodesFromItsWord : WellFormed (.sys 0xFFF) ∧ WellFormed (.drw 15 15 15) := by
  decide

theorem witness_EveryValidWordIsTheWordOfItsInstruction :
    decodeWord 0xFF65 = .ok (.ldVxI 15) ∧ decodeWord 0x0FFF = .ok (.sys 0xFFF) := by decide

theorem witness_InvalidWordsAreExactlyTheFiveClasses :
    decodeWord (0x8#4 ++ 0x1#4 ++ 0x2#4 ++ 0xF#4) = .error (.invalidInstruction 0x8 0x1 0x2 0xF) := by decide

/-- The two pairs of rows that share a word (R52). -/
theorem witness_OnlyClsAndRetAreTakenOutOfTheSysFamily :
    matchesRow 0x00E0 (opcodeMap.getD 0 (0, 0)) = true ∧ matchesRow 0x00E0 (opcodeMap.getD 2 (0, 0)) = true ∧
    matchesRow 0x00EE (opcodeMap.getD 1 (0, 0)) = true ∧ matchesRow 0x00EE (opcodeMap.getD 2 (0, 0)) = true := by
  decide

/-- A CLS at the last fetchable address after a turn without operations, and an instruction that the turn loads. -/
theorem witness_StepRunsTheDecodedInstruction :
    let s := bytes { base with pc := 0xFFE } 0xFFE [0x00, 0xE0]
    let l := hosted [.load program] base
    s.beginTurn.pc.toNat ≤ 0x0FFE ∧ s.hostTurn.ops = [] ∧
    decode (s.beginTurn.mem.read s.beginTurn.pc.toNat) (s.beginTurn.mem.read (s.beginTurn.pc.toNat + 1)) = .ok .cls ∧
    decode (l.beginTurn.mem.read l.beginTurn.pc.toNat) (l.beginTurn.mem.read (l.beginTurn.pc.toNat + 1)) =
      .ok (.ldImm 0 5) := by decide

/-- A word of the table, and a `pc` at either side of the last fetchable address. -/
theorem witness_PlacedWordIsTheNextInstructionRun :
    decodeTableWord 16 0xD12F = some (.drw 1 2 15) ∧ ({ base with pc := 0xFFE } : State).pc.toNat ≤ 0x0FFE ∧
    ¬ ({ base with pc := 0xFFF } : State).pc.toNat ≤ 0x0FFE := by decide

/-- Both ways the fetch fails: the second byte, and the first. -/
theorem witness_FetchReadsTwoBytesOrEndsTheAdvance :
    ({ base with pc := 0xFFF } : State).beginTurn.fetch = .error (.outOfBounds 0x1000) ∧
    ({ base with pc := 0x10FE } : State).beginTurn.fetch = .error (.outOfBounds 0x10FE) := by decide

/-- 95 vectors 2.9.7 and 2.9.8: executing the font. -/
theorem witness_TheFetchedWordIsDecodedOrEndsTheAdvance :
    ({ base with pc := 0 } : State).beginTurn.fetch = .ok (0xF0, 0x90) ∧
    decodeWord (hiNibble 0xF0 ++ loNibble 0xF0 ++ hiNibble 0x90 ++ loNibble 0x90) =
      .error (.invalidInstruction 0xF 0 9 0) ∧
    ({ base with pc := 0x4E } : State).beginTurn.fetch = .ok (0x80, 0x80) ∧
    decodeWord (hiNibble 0x80 ++ loNibble 0x80 ++ hiNibble 0x80 ++ loNibble 0x80) = .ok (.ldReg 0 8) := by decide

/-- The boundary and the nanosecond below it. -/
theorem witness_TimersCountDownAtTheSixtiethOfASecond :
    1000000000 ≤ 60 * (State.reset.acc + 16666667) ∧ 60 * (State.reset.acc + 16666666) < 1000000000 := by decide

/-- A step that reports an error and reaches the boundary, the timers running. -/
theorem witness_EveryStepCommitsItsTimerPhase :
    ∃ t, step { turn 17000000 0 with dt := 3, st := 3 } = .next t ∧ t.result ≠ .ok ∧ t.dt = 2 ∧ t.acc = 0 :=
  ⟨_, rfl, by decide, by decide, by decide⟩

/-- R68: a key wait that stalls at the boundary, which executes neither timer write; and a step that executes each. -/
theorem witness_EveryStepCommitsItsTimerPhase_executes :
    let s : Nat → State := fun w => { turn 17000000 0 with dt := 3, st := 3 }.withFetchWord 16 w
    steps (s 0xF00A) (fun t => okAt t 0x200 && t.dt == 2 && t.st == 2) = true ∧
    (∀ x, ¬ (s 0xF00A).Executes (.ldDtVx x)) ∧ (∀ x, ¬ (s 0xF00A).Executes (.ldStVx x)) ∧
    (s 0xF115).Executes (.ldDtVx 1) ∧ (s 0xF118).Executes (.ldStVx 1) := by
  intro s
  have wait : (s 0xF00A).Executes (.ldVxK 0) := ⟨0xF0, 0x0A, by decide, by decide⟩
  exact ⟨by decide, fun x h => (nomatch wait.unique h), fun x h => (nomatch wait.unique h),
    ⟨0xF1, 0x15, by decide, by decide⟩, ⟨0xF1, 0x18, by decide, by decide⟩⟩

theorem witness_OnlyTheirOwnInstructionsWriteTheTimers :
    ∃ t, exec (.ldDtVx 1) (regs base [(1, 9)]) = .next t ∧ (∀ x, Instr.ldDtVx 1 ≠ .ldStVx x) ∧ t.dt = 9 :=
  ⟨_, rfl, by simp, by decide⟩

/-- Host's turns whose last write of the latch sets it or resets it, followed by operations that do not write it. -/
theorem witness_TheLatchIsWrittenOnlyByTheHost :
    (∃ t, exec (.ldVxK 0) (keys base [3]) = .next t) ∧
    (∃ t, step (hosted [.reset, .setKeys (Vector.replicate 16 true), .display] base) = .next t ∧ t.keyDown 15 = true) ∧
    (∃ t, step (hosted [.setKeys (Vector.replicate 16 true), .reset, .display] (keys base [15])) = .next t ∧
      t.keyDown 15 = false) ∧
    HostOp.reset ∉ [.load program, .display] ∧ ∀ k, HostOp.setKeys k ∉ [.load program, .display] :=
  ⟨⟨_, rfl⟩, ⟨_, rfl, by decide⟩, ⟨_, rfl, by decide⟩, by simp, by simp⟩

/-- Register 3 of a load of `V[0] .. V[2]`, and register 2 of an addition. -/
theorem witness_NoInstructionWritesAnyOtherRegister :
    (∃ t, exec (.ldVxI 2) base = .next t ∧ writesReg (.ldVxI 2) 3 = false) ∧
    ∃ t, exec (.addReg 0 1) base = .next t ∧ writesReg (.addReg 0 1) 2 = false :=
  ⟨⟨_, rfl, by decide⟩, ⟨_, rfl, by decide⟩⟩

/-- An instruction that writes each of the three. -/
theorem witness_IndexStackAndDisplayHaveTheirOwnWriters :
    (∃ t, exec (.ldI 0x300) base = .next t ∧ t.i ≠ base.i) ∧
    (∃ t, exec (.call 0x300) base = .next t ∧ t.stack ≠ base.stack) ∧
    ∃ t, exec (.drw 0 0 5) base = .next t ∧ t.display ≠ base.display :=
  ⟨⟨_, rfl, by decide⟩, ⟨_, rfl, by decide⟩, ⟨_, rfl, fun h => by
    have := congrArg (fun d : Display => d.pixel 0 0) h
    revert this; decide⟩⟩

/-- A store that runs off the end of memory, with an address it stores to and one it does not. -/
theorem witness_OnlyStoresChangeMemoryAndOnlyFromIndexOn :
    let s : State := { base with i := 0xFFE }
    (∃ t, exec (.ldB 0) s = .next t) ∧ s.dataAddr 1 ≤ 0x0FFF ∧ 1 < storeCount (.ldB 0) ∧ ¬ s.dataAddr 2 ≤ 0x0FFF :=
  ⟨⟨_, rfl⟩, by decide, by decide, by decide⟩

theorem witness_OnlyRndReadsTheRandomByte : ∀ x kk, Instr.drw 0 0 15 ≠ .rnd x kk := by simp

/-- An instruction that raises an error and one that does not. -/
theorem witness_InstructionsRaiseExactlyTheListedErrors :
    (∃ t, exec .ret base = .next t ∧ t.result = .error .noReturnAddress) ∧
    ∃ t, exec .ret { base with stack := [0x204] } = .next t ∧ t.result = .ok :=
  ⟨⟨_, rfl, by decide⟩, ⟨_, rfl, by decide⟩⟩

/-- A load that fails after two registers. -/
theorem witness_AnErrorLeavesEverythingButPartialEffects :
    ∃ t, exec (.ldVxI 3) { base with i := 0xFFE } = .next t ∧ t.result = .error (.outOfBounds 0x1000) :=
  ⟨_, rfl, by decide⟩

/-- The three cases: an error on record, a first error, and none. -/
theorem witness_FirstErrorIsNeverCleared :
    (∃ t, step { base with firstError := some .noReturnAddress } = .next t) ∧
    (∃ t, step base = .next t ∧ base.firstError = none ∧ t.result = .error (.unsupportedExternalCall 0)) ∧
    ∃ t, step (base.withFetchWord 16 0x00E0) = .next t ∧ (base.withFetchWord 16 0x00E0).firstError = none ∧
      t.result = .ok :=
  ⟨⟨_, rfl⟩, ⟨_, rfl, rfl, rfl⟩, ⟨_, rfl, by decide, by decide⟩⟩

/-- A state that meets the invariant with memory written, a return address at its bound and `pc` at its bound. -/
theorem witness_EveryStepKeepsTheInvariant :
    let s : State := { base with mem := Memory.write [] 0x300 7, stack := [0x1000], pc := 0x10FE }
    MachineInv s ∧ ∃ t, step s = .next t ∧ errAt t (.outOfBounds 0x10FE) 0x10FE = true :=
  ⟨⟨show Memory.wf [(0x300, 7)] by decide, by decide,
    fun w hw => by cases List.mem_singleton.1 hw; decide, .inl rfl⟩, next_of_steps (by decide)⟩

/-- The last address of memory and the first beyond it. -/
theorem witness_AccessesAreCheckedAndTakeEffectAtOnce :
    base.memRead 4095 = .ok 0 ∧ base.memRead 4096 = .error (.outOfBounds 4096) ∧
    base.memWrite 4096 1 = .error (.outOfBounds 4096, base) := by decide

theorem witness_CanonicalMemoryIsKeptAndUnique :
    Memory.wf [(0x200, 1), (0xFFF, 2)] ∧ ¬ Memory.wf [(0xFFF, 2), (0x200, 1)] ∧ ¬ Memory.wf [(0x300, 0)] ∧
    ∃ t, State.reset.load [1, 2] = .next t := ⟨by decide, by decide, by decide, _, rfl⟩

/-- The longest program and one byte more. -/
theorem witness_HostLoadAndInspectionDoWhatTheySay :
    (List.replicate 3584 (0 : Byte)).length ≤ 3584 ∧ 3584 < (List.replicate 3585 (0 : Byte)).length ∧
    State.reset.inspectReg 16 = .error (.outOfBounds 16) ∧ State.reset.inspectMem 4095 = .ok 0 ∧
    State.reset.inspectMem 4096 = .error (.outOfBounds 4096) :=
  ⟨List.length_replicate.le, by rw [List.length_replicate]; omega, by decide, by decide, by decide⟩

theorem witness_RetTakesTheMostRecentReturnAddress :
    ({ base with stack := [0x1000, 0x204] } : State).stack = 0x1000 :: [0x204] := rfl

theorem witness_RetOnTheEmptyStackRaisesNoReturnAddress : base.stack = [] := rfl

/-- The target whose fetch fails and the one before it. -/
theorem witness_JpReplacesThePc : (0xFFF : Addr) = 0xFFF ∧ (0xFFE : Addr) ≠ 0xFFF := by decide

/-- A state at another `pc` whose call stack is as a CALL left it. -/
theorem witness_RetReturnsAfterTheMatchingCall :
    ∃ t, Completes (.call 0x300) base t ∧ ({ base with pc := 0x304, stack := [0x202] } : State).stack = t.stack :=
  ⟨_, ⟨rfl, rfl⟩, by decide⟩

theorem witness_SkipsPassOverOneInstructionWhenTaken :
    ({ base with pc := 0x1002 } : State).pc = (0x0FFE : Word) + 4 := by decide

/-- A destination that is not the flag register, next to it. -/
theorem witness_AddRegWritesSumThenCarry : (14 : Nibble) ≠ 15 := by decide
theorem witness_SubtractionsWriteDifferenceThenNotBorrow : (14 : Nibble) ≠ 15 := by decide
theorem witness_ShiftsReadTheSecondRegister : (14 : Nibble) ≠ 15 := by decide

/-- The last place for three digits. -/
theorem witness_LdBStoresThreeDecimalDigits : ({ base with i := 0xFFD } : State).dataAddr 2 ≤ 0x0FFF := by decide

/-- The last place for a block of sixteen, and for a block of one; a register of the block and one above it. -/
theorem witness_LdIVxStoresTheRegisterBlock :
    ({ base with i := 0xFF0 } : State).dataAddr (15 : Nibble).toNat ≤ 0x0FFF ∧
    ({ base with i := 0xFFF } : State).dataAddr (0 : Nibble).toNat ≤ 0x0FFF ∧
    (15 : Nibble).toNat ≤ (15 : Nibble).toNat ∧ ¬ (1 : Nibble).toNat ≤ (0 : Nibble).toNat := by decide

theorem witness_LdVxILoadsTheRegisterBlock :
    ({ base with i := 0xFF0 } : State).dataAddr (15 : Nibble).toNat ≤ 0x0FFF ∧
    ({ base with i := 0xFFF } : State).dataAddr (0 : Nibble).toNat ≤ 0x0FFF := by decide

/-- One byte short of fitting; and a base that itself lies above memory. -/
theorem witness_StoresOffTheEndKeepTheBytesBelowIt :
    0x0FFF < ({ base with i := 0xFFE } : State).dataAddr 2 ∧
    0x0FFF < ({ base with i := 0xFF1 } : State).dataAddr (15 : Nibble).toNat ∧
    0x0FFF < ({ base with i := 0x1000 } : State).dataAddr (0 : Nibble).toNat := by decide

theorem witness_LoadsOffTheEndKeepTheRegistersAboveIt :
    let s : State := { base with i := 0xFF1 }
    0x0FFF < s.dataAddr (15 : Nibble).toNat ∧ (14 : Nibble).toNat ≤ (15 : Nibble).toNat ∧
    s.dataAddr (14 : Nibble).toNat ≤ 0x0FFF := by decide

/-- The state a store left, with other registers. -/
theorem witness_ABlockStoredAndLoadedComesBack :
    let s := regs { base with i := 0xFF0 } [(0, 1), (15, 2)]
    s.dataAddr (15 : Nibble).toNat ≤ 0x0FFF ∧
    ∃ t, Completes (.ldIVx 15) s t ∧ Same .index t (t.setReg 15 9) ∧ Same .mem t (t.setReg 15 9) :=
  ⟨by decide, _, ⟨rfl, rfl⟩, rfl, fun _ => rfl⟩

/-- Height 0 with the base outside memory; the last place for one row and for fifteen; a hit and no hit. -/
theorem witness_DrwDrawsTheSpriteAndReportsCollision :
    ((0 : Nibble) = 0 ∨ ({ base with i := 0x1000 } : State).dataAddr 0 ≤ 0x0FFF) ∧
    ((1 : Nibble) = 0 ∨ ({ base with i := 0xFFF } : State).dataAddr ((1 : Nibble).toNat - 1) ≤ 0x0FFF) ∧
    ((15 : Nibble) = 0 ∨ ({ base with i := 0xFF1 } : State).dataAddr ((15 : Nibble).toNat - 1) ≤ 0x0FFF) ∧
    SpriteHits (1 : Nibble).toNat 0 0 (lit base [0]) ∧ ¬ SpriteHits (1 : Nibble).toNat 0 0 base := by
  refine ⟨by decide, by decide, by decide, ⟨0, 0, 0, 0, by decide, by decide, ⟨rfl, rfl⟩, by decide, by decide⟩, ?_⟩
  rintro ⟨r, c, col, row, -, -, -, -, h⟩
  have dark : ∀ col row, base.display.pixel col row = false := Display.pixel_dark
  rw [dark] at h; exact Bool.noConfusion h

/-- One row short of fitting; and a base that itself lies above memory. -/
theorem witness_DrwOffTheEndKeepsTheRowsDrawn :
    (15 : Nibble) ≠ 0 ∧ 0x0FFF < ({ base with i := 0xFF2 } : State).dataAddr ((15 : Nibble).toNat - 1) ∧
    (1 : Nibble) ≠ 0 ∧ 0x0FFF < ({ base with i := 0x1000 } : State).dataAddr ((1 : Nibble).toNat - 1) := by decide

/-- The first font row on a dark display: no hit, and a lit bit; an empty row has none. -/
theorem witness_DrawingTwiceRestoresTheDisplay :
    (0 : Nibble) ≠ 15 ∧ (14 : Nibble) ≠ 15 ∧ ((1 : Nibble) = 0 ∨ base.dataAddr ((1 : Nibble).toNat - 1) ≤ 0x0FFF) ∧
    ¬ SpriteHits (1 : Nibble).toNat (base.reg 0) (base.reg 14) base ∧ SpriteHasLitBit (1 : Nibble).toNat base ∧
    ¬ SpriteHasLitBit (0 : Nibble).toNat base := by
  refine ⟨by decide, by decide, by decide, ?_, ⟨0, 0, by decide, by decide, by decide⟩, ?_⟩
  · rintro ⟨r, c, col, row, -, -, -, -, h⟩
    have dark : ∀ col row, base.display.pixel col row = false := Display.pixel_dark
    rw [dark] at h; exact Bool.noConfusion h
  · rintro ⟨r, c, h, -⟩; exact absurd h (Nat.not_lt_zero r)

/-- The largest key number and the first beyond it. -/
theorem witness_KeySkipsTestTheNumberedKey :
    ((regs base [(2, 15)]).reg 2).toNat < 16 ∧ 15 < ((regs base [(2, 16)]).reg 2).toNat := by decide

/-- No key pressed; and keys 3 and 9 pressed. -/
theorem witness_KeyWaitStallsOrTakesTheLeastKey :
    (∀ k, base.keyDown k = false) ∧ (keys base [9, 3]).keyDown 3 = true ∧
    ∀ j, j < (3 : Fin 16) → (keys base [9, 3]).keyDown j = false := by decide

end Sys2Proof.Tests
end

section
/-! PROOFS. One `advance` from the fetched word on (spec/40_cycle_engine.md R70): the word and its bytes decode alike,
the step for each answer of the decoder, and what a failed `advance` leaves of the state the host called it in. -/

namespace Sys2Proof

/-- R46, R70: the word of the four nibbles of two bytes, in order, decodes as the bytes do. -/
theorem decodeWord_of_bytes (b0 b1 : Byte) :
    decodeWord (hiNibble b0 ++ loNibble b0 ++ hiNibble b1 ++ loNibble b1) = decode b0 b1 := by
  simp only [decodeWord, decode, hiNibble_wordHi, loNibble_wordHi, hiNibble_wordLo, loNibble_wordLo]

/-- R56: a decode failure carries the four nibbles of its two bytes. -/
theorem decode_error_eq {b0 b1 : Byte} {e : DecodeError} (h : decode b0 b1 = .error e) :
    e = .invalidInstruction (hiNibble b0) (loNibble b0) (hiNibble b1) (loNibble b1) := by
  unfold decode at h
  split at h
  · cases h
  · exact (Except.error.inj h).symm

end Sys2Proof

namespace Sys2Proof.Machine

theorem KeptExcept.trans {a b : List Part} {s t u : State} (h : KeptExcept a s t) (k : KeptExcept b t u) :
    KeptExcept (a ++ b) s u := by
  intro p hp
  obtain ⟨ha, hb⟩ := not_or.1 (mt List.mem_append.2 hp)
  have first := h p ha
  have second := k p hb
  cases p with
  | regs => exact fun x => (second x).trans (first x)
  | mem => exact fun a => (second a).trans (first a)
  | display => exact fun col row => (second col row).trans (first col row)
  | host => exact ⟨second.1.trans first.1, second.2.1.trans first.2.1, second.2.2.trans first.2.2⟩
  | index | stack | dt | st | acc | key | errors => exact Eq.trans second first

/-- R65, R68: between the host's call and the fetch only the timer phase acts (and the random byte is supplied). -/
theorem State.prepared_kept (s : State) : KeptExcept [.dt, .st, .acc, .host] s.beginTurn s.prepared := by
  intro p hp
  cases p with
  | dt | st | acc | host => simp at hp
  | regs | mem => exact fun _ => rfl
  | display => exact fun _ _ => rfl
  | index | stack | key | errors => rfl

/-- R68, R125: an error of the fetch or the decode leaves what the host's call found but the timer phase's. -/
theorem State.prepared_raise_kept (s : State) (e : EngineError) :
    KeptExcept [.dt, .st, .acc, .host, .errors] s.beginTurn (s.prepared.raise e) :=
  s.prepared_kept.trans (s.prepared.raise_kept e)

/-- R70: a step whose fetched bytes decode executes the instruction. -/
theorem step_of_decode_ok {s : State} {b0 b1 : Byte} {i : Instr} (hf : s.beginTurn.fetch = .ok (b0, b1))
    (hd : decode b0 b1 = .ok i) : step s = exec i s.prepared := by
  rw [step_eq, State.runInstruction, State.prepared_fetch]
  simp only [hf, hd]

/-- R70: a step whose fetched bytes do not decode raises the decoder's error. -/
theorem step_of_decode_error {s : State} {b0 b1 : Byte} {e : DecodeError} (hf : s.beginTurn.fetch = .ok (b0, b1))
    (hd : decode b0 b1 = .error e) : step s = .next (s.prepared.raise (decodeFailure e)) := by
  rw [step_eq, State.runInstruction, State.prepared_fetch]
  simp only [hf, hd]

/-- Settles O11: the word of the nibbles decodes as the bytes do, and a decode failure is raised on the prepared
state, which differs from the one the host called in by the timer phase only. -/
theorem theFetchedWordIsDecodedOrEndsTheAdvance : Obligations.TheFetchedWordIsDecodedOrEndsTheAdvance := by
  constructor
  · intro s b0 b1 i hf hd
    rw [decodeWord_of_bytes] at hd
    exact step_of_decode_ok hf hd
  · intro s b0 b1 e hf hd
    rw [decodeWord_of_bytes] at hd
    obtain rfl := decode_error_eq hd
    exact ⟨rfl, _, step_of_decode_error hf hd, rfl, rfl, s.prepared.raise_kept _, s.prepared_raise_kept _⟩

end Sys2Proof.Machine
end

section
/-! PROOFS. LD_IMM (spec/43_alu.md R87): its word decodes, and its result is a plain one (R86). -/

namespace Sys2Proof

/-- R51 row 9: the word `6xkk` decodes to LD_IMM with the fields `x` and `kk`. -/
theorem decodeWord_ldImm (x : Nibble) (kk : Byte) : decodeWord (0x6#4 ++ x ++ kk) = .ok (.ldImm x kk) := by
  simp only [decodeWord_byte, decodeNibbles, hi_append_lo]

end Sys2Proof

namespace Sys2Proof.Machine

/-- R86: an instruction that answers a plain result completes with it in `V[x]` and changes nothing else but `pc`. -/
theorem exists_completes_of_plainResult {i : Instr} {s : State} {x : Nibble} {r : Byte}
    (h : exec i s = .next (s.plainResult x r)) :
    ∃ t, Completes i s t ∧ t.reg x = r ∧ RegsKeptExcept (fun q => q = x) s t ∧ KeptExcept [.regs] s t ∧
      t.pc = s.pc + 2 :=
  ⟨_, ⟨h, rfl⟩, s.plainResult_spec x r⟩

/-- R87: LD_IMM answers the plain result `kk`. -/
theorem exec_ldImm (x : Nibble) (kk : Byte) (s : State) : exec (.ldImm x kk) s = .next (s.plainResult x kk) := rfl

/-- Settles O39: the word decodes to LD_IMM, whose plain result is its constant. -/
theorem ldImmLoadsTheConstant : Obligations.LdImmLoadsTheConstant :=
  ⟨decodeWord_ldImm, fun x kk s => exists_completes_of_plainResult (exec_ldImm x kk s)⟩

end Sys2Proof.Machine
end

section
/-! PROOFS. CLS (spec/45_display.md R109): its word decodes, and a step that replaces the display replaces nothing
else. -/

namespace Sys2Proof

/-- R51 row 1: the word `00E0` decodes to CLS. -/
theorem decodeWord_cls : decodeWord 0x00E0 = .ok .cls := by decide

end Sys2Proof

namespace Sys2Proof.Machine

/-- R24: replacing the display leaves every other part as it was. -/
theorem State.display_replaced_kept (s : State) (d : Display) : KeptExcept [.display] s { s with display := d } := by
  intro p hp
  cases p with
  | display => simp at hp
  | regs | mem => exact fun _ => rfl
  | host => exact ⟨rfl, rfl, rfl⟩
  | index | stack | dt | st | acc | key | errors => rfl

/-- R109: CLS goes to the next instruction with the dark display. -/
theorem exec_cls (s : State) : exec .cls s = .next ({ s with display := Display.dark }.goTo (s.pc + 2)) := rfl

/-- Settles O54: the display CLS leaves is the dark one, and neither its replacement nor the move of `pc` changes any
other part. -/
theorem clsDarkensEveryPixel : Obligations.ClsDarkensEveryPixel := by
  refine ⟨decodeWord_cls, fun s => ⟨_, ⟨exec_cls s, State.goTo_result ..⟩, ?dark, ?kept, State.goTo_pc ..⟩⟩
  case dark => exact Display.pixel_dark
  case kept => exact (s.display_replaced_kept Display.dark).trans (State.goTo_kept _ _)

end Sys2Proof.Machine
end

section
/-! PROOFS. RET on the empty call stack (spec/41_flow.md R78, spec/60_exceptions.md R123): it answers the error entry on
the state it ran in. -/

namespace Sys2Proof.Machine

/-- R78, R123: with no entry to remove, RET raises `NoReturnAddress` before any effect. -/
theorem exec_ret_of_stack_nil {s : State} (h : s.stack = []) : exec .ret s = .next (s.raise .noReturnAddress) := by
  simp only [exec, execRet, h]

/-- Settles O33: the state RET leaves is the one it ran in with the error raised on it, so that `pc` stays at the RET
and only the record of errors differs. -/
theorem retOnTheEmptyStackRaisesNoReturnAddress : Obligations.RetOnTheEmptyStackRaisesNoReturnAddress :=
  fun s h => ⟨_, .intro (exec_ret_of_stack_nil h) rfl rfl, s.raise_kept _⟩

end Sys2Proof.Machine
end

section
/-! PROOFS. The decoder and the encoder (spec/30_encoding.md sections 2 to 4): what each table of the decoder reads back,
that decoding undoes encoding and encoding undoes decoding, the words that decode to nothing, and the rows that share a
word. -/

namespace Sys2Proof

/-! ## Decoding a word of each format (R47) -/

/-- R47: a word written as an opcode nibble and an address field. -/
theorem decodeWord_of_addr {n3 : Nibble} {i : Addr → Instr} {nnn : Addr}
    (h : ∀ n2 n1 n0, nnn = fieldNnn n2 n1 n0 → decodeNibbles n3 n2 n1 n0 = some (i (fieldNnn n2 n1 n0))) :
    decodeWord (n3 ++ nnn) = .ok (i nnn) := by
  obtain ⟨n2, n1, n0, rfl⟩ := exists_fieldNnn nnn
  rw [append_fieldNnn, decodeWord_nibbles, h n2 n1 n0 rfl]

/-- R47: a word written as an opcode nibble, a register and a constant. -/
theorem decodeWord_of_kk {n3 x : Nibble} {i : Byte → Instr} (kk : Byte)
    (h : ∀ n1 n0, decodeNibbles n3 x n1 n0 = some (i (fieldKk n1 n0))) : decodeWord (n3 ++ x ++ kk) = .ok (i kk) := by
  obtain ⟨n1, n0, rfl⟩ := exists_fieldKk kk
  rw [append_fieldKk, decodeWord_nibbles, h n1 n0]

/-- R52, R53: a well-formed SYS is not taken for CLS or RET. -/
theorem decodeZero_of_wellFormed {n2 n1 n0 : Nibble} (h : WellFormed (.sys (fieldNnn n2 n1 n0))) :
    decodeZero n2 n1 n0 = .sys (fieldNnn n2 n1 n0) := by
  simp only [WellFormed, Instr.wellFormed, Bool.and_eq_true, bne_iff_ne] at h
  rw [decodeZero, if_neg h.1, if_neg h.2]

/-- Settles O4: one case per row of the opcode map; the word is read back in the format of its row. -/
theorem everyWellFormedInstructionDecodesFromItsWord : Obligations.EveryWellFormedInstructionDecodesFromItsWord := by
  intro i wf
  cases i with
  | cls | ret => decide
  | sys nnn => exact decodeWord_of_addr (i := .sys) fun n2 n1 n0 e => congrArg some (decodeZero_of_wellFormed (e ▸ wf))
  | jp nnn => exact decodeWord_of_addr (i := .jp) fun _ _ _ _ => rfl
  | call nnn => exact decodeWord_of_addr (i := .call) fun _ _ _ _ => rfl
  | ldI nnn => exact decodeWord_of_addr (i := .ldI) fun _ _ _ _ => rfl
  | jpV0 nnn => exact decodeWord_of_addr (i := .jpV0) fun _ _ _ _ => rfl
  | seImm x kk => exact decodeWord_of_kk (i := .seImm x) kk fun _ _ => rfl
  | sneImm x kk => exact decodeWord_of_kk (i := .sneImm x) kk fun _ _ => rfl
  | ldImm x kk => exact decodeWord_of_kk (i := .ldImm x) kk fun _ _ => rfl
  | addImm x kk => exact decodeWord_of_kk (i := .addImm x) kk fun _ _ => rfl
  | rnd x kk => exact decodeWord_of_kk (i := .rnd x) kk fun _ _ => rfl
  | seReg x y | sneReg x y | drw x y n | ldReg x y | or x y | and x y | xor x y | addReg x y | sub x y | shr x y
  | subn x y | shl x y => exact decodeWord_nibbles ..
  | skp x | sknp x | ldVxDt x | ldVxK x | ldDtVx x | ldStVx x | addI x | ldF x | ldB x | ldIVx x | ldVxI x =>
    exact decodeWord_byte ..

/-! ## Encoding what was decoded (R59) -/

/-- The instruction is well formed and its word has these four nibbles. -/
def Encodes (i : Instr) (n3 n2 n1 n0 : Nibble) : Prop := WellFormed i ∧ encode i = n3 ++ n2 ++ n1 ++ n0

theorem decodeZero_encodes (n2 n1 n0 : Nibble) : Encodes (decodeZero n2 n1 n0) 0x0 n2 n1 n0 := by
  rw [Encodes, ← append_fieldNnn, decodeZero]
  split
  · next h => rw [h]; decide
  · split
    · next h => rw [h]; decide
    · next hcls hret => exact ⟨Bool.and_eq_true_iff.2 ⟨bne_iff_ne.2 hcls, bne_iff_ne.2 hret⟩, rfl⟩

theorem decodeEight_encodes {x y n0 : Nibble} {i : Instr} (h : decodeEight x y n0 = some i) :
    Encodes i 0x8 x y n0 := by
  unfold decodeEight at h
  split at h <;> cases h <;> exact ⟨rfl, rfl⟩

theorem decodeE_encodes {x n1 n0 : Nibble} {i : Instr} (h : decodeE x (fieldKk n1 n0) = some i) :
    Encodes i 0xE x n1 n0 := by
  rw [Encodes, ← append_fieldKk]
  generalize fieldKk n1 n0 = kk at h
  unfold decodeE at h
  split at h <;> cases h <;> exact ⟨rfl, rfl⟩

theorem decodeF_encodes {x n1 n0 : Nibble} {i : Instr} (h : decodeF x (fieldKk n1 n0) = some i) :
    Encodes i 0xF x n1 n0 := by
  rw [Encodes, ← append_fieldKk]
  generalize fieldKk n1 n0 = kk at h
  unfold decodeF at h
  split at h <;> cases h <;> exact ⟨rfl, rfl⟩

/-- R51: whatever the opcode map reads from four nibbles is well formed and has them as its word. -/
theorem decodeNibbles_encodes {n3 n2 n1 n0 : Nibble} {i : Instr} (h : decodeNibbles n3 n2 n1 n0 = some i) :
    Encodes i n3 n2 n1 n0 := by
  unfold decodeNibbles at h
  split at h
  case h_1 => cases h; exact decodeZero_encodes ..
  case h_6 | h_10 =>
    split at h
    · next e => cases h; subst e; exact ⟨rfl, rfl⟩
    · cases h
  case h_9 => exact decodeEight_encodes h
  case h_15 => exact decodeE_encodes h
  case h_16 => exact decodeF_encodes h
  case h_17 => cases h
  case h_14 => cases h; exact ⟨rfl, rfl⟩
  case h_2 | h_3 | h_11 | h_12 => cases h; exact ⟨rfl, append_fieldNnn ..⟩
  case h_4 | h_5 | h_7 | h_8 | h_13 => cases h; exact ⟨rfl, append_fieldKk ..⟩

/-- Settles O5: the word's four nibbles are those of the instruction they decode to. -/
theorem everyValidWordIsTheWordOfItsInstruction : Obligations.EveryValidWordIsTheWordOfItsInstruction := by
  intro w i h
  obtain ⟨n3, n2, n1, n0, rfl⟩ := exists_nibbles w
  rw [decodeWord_nibbles] at h
  split at h
  · next d => cases h; exact decodeNibbles_encodes d
  · cases h

/-! ## The words that decode to nothing (R55) -/

theorem decodeEight_eq_none_iff {x y n0 : Nibble} :
    decodeEight x y n0 = none ↔ n0 ∈ [8, 9, 0xA, 0xB, 0xC, 0xD, 0xF] := by
  unfold decodeEight
  split
  case h_10 => revert n0; decide
  all_goals simp

theorem decodeE_eq_none_iff {x : Nibble} {kk : Byte} : decodeE x kk = none ↔ kk ∉ [0x9E, 0xA1] := by
  unfold decodeE
  split <;> simp_all

theorem decodeF_eq_none_iff {x : Nibble} {kk : Byte} :
    decodeF x kk = none ↔ kk ∉ [0x07, 0x0A, 0x15, 0x18, 0x1E, 0x29, 0x33, 0x55, 0x65] := by
  unfold decodeF
  split <;> simp_all

/-- R55: no row matches exactly in the five classes. -/
theorem decodeNibbles_eq_none_iff {n3 n2 n1 n0 : Nibble} :
    decodeNibbles n3 n2 n1 n0 = none ↔
      (n3 = 5 ∧ n0 ≠ 0) ∨ (n3 = 8 ∧ n0 ∈ [8, 9, 0xA, 0xB, 0xC, 0xD, 0xF]) ∨ (n3 = 9 ∧ n0 ≠ 0) ∨
      (n3 = 0xE ∧ fieldKk n1 n0 ∉ [0x9E, 0xA1]) ∨
      (n3 = 0xF ∧ fieldKk n1 n0 ∉ [0x07, 0x0A, 0x15, 0x18, 0x1E, 0x29, 0x33, 0x55, 0x65]) := by
  unfold decodeNibbles
  split
  case h_9 => rw [decodeEight_eq_none_iff]; simp
  case h_15 => rw [decodeE_eq_none_iff]; simp
  case h_16 => rw [decodeF_eq_none_iff]; simp
  case h_17 => exfalso; revert n3; decide
  all_goals simp

/-- Settles O6: a word decodes to nothing where no row matches its nibbles, and then reports them. -/
theorem invalidWordsAreExactlyTheFiveClasses : Obligations.InvalidWordsAreExactlyTheFiveClasses := by
  intro n3 n2 n1 n0
  rw [← decodeNibbles_eq_none_iff (n2 := n2), decodeWord_nibbles]
  cases decodeNibbles n3 n2 n1 n0 with
  | none => exact ⟨by simp, fun e h => (Except.error.inj h).symm⟩
  | some i => exact ⟨by simp, fun e h => nomatch h⟩

/-! ## Rows that share a word (R52) -/

/-- Two rows that match one word agree on the bits both fix. -/
theorem rows_agree_of_matchesRow {w : Word} {p q : Word × Word} (hp : matchesRow w p = true)
    (hq : matchesRow w q = true) : p.1 &&& q.2 = q.1 &&& p.2 := by
  rw [matchesRow, beq_iff_eq] at hp hq
  rw [← hp, ← hq, BitVec.and_assoc, BitVec.and_assoc, BitVec.and_comm p.2]

/-- R52: only CLS and RET agree with a later row, and only with SYS. -/
theorem rows_agree_only_with_sys : ∀ k, k < 35 → ∀ j, j < k →
    (opcodeMap.getD j (0, 0)).1 &&& (opcodeMap.getD k (0, 0)).2 =
      (opcodeMap.getD k (0, 0)).1 &&& (opcodeMap.getD j (0, 0)).2 → k = 2 ∧ (j = 0 ∨ j = 1) := by
  decide

/-- A row that fixes all 16 bits matches its own word only. -/
theorem eq_of_matchesRow_full {w m : Word} (h : matchesRow w (m, 0xFFFF) = true) : w = m :=
  (BitVec.and_allOnes (x := w)).symm.trans (beq_iff_eq.1 h)

/-- R52: the words of `0x0000 .. 0x0FFF`. -/
theorem decodeWord_zero (nnn : Addr) : decodeWord (0x0#4 ++ nnn) =
    .ok (if nnn = 0x0E0 then .cls else if nnn = 0x0EE then .ret else .sys nnn) :=
  decodeWord_of_addr (i := fun nnn => if nnn = 0x0E0 then .cls else if nnn = 0x0EE then .ret else .sys nnn)
    fun _ _ _ _ => rfl

end Sys2Proof

namespace Sys2Proof.Machine

/-- Settles O7: the words with opcode nibble 0 are decoded by `decodeZero`; two rows that share a word agree on the bits
both fix, which leaves the two pairs, and CLS and RET fix every bit. -/
theorem onlyClsAndRetAreTakenOutOfTheSysFamily : Obligations.OnlyClsAndRetAreTakenOutOfTheSysFamily := by
  refine ⟨decodeWord_zero, fun s => ⟨_, _, .intro rfl rfl rfl⟩, fun j k w _ hk hjk mj mk => ?_⟩
  obtain ⟨rfl, rfl | rfl⟩ := rows_agree_only_with_sys k hk j hjk (rows_agree_of_matchesRow mj mk)
  · exact ⟨rfl, .inl ⟨rfl, eq_of_matchesRow_full mj⟩⟩
  · exact ⟨rfl, .inr ⟨rfl, eq_of_matchesRow_full mj⟩⟩

/-- Settles O3: each word of the table decoded. -/
theorem sampleWordsDecodeAsTheTableSays : Obligations.SampleWordsDecodeAsTheTableSays := by
  unfold Obligations.SampleWordsDecodeAsTheTableSays
  decide

end Sys2Proof.Machine
end


section
/-! PROOFS. Frames (`KeptExcept`) of the updates that the instructions are made of, and how they combine. -/

namespace Sys2Proof.Machine

theorem KeptExcept.mono {a b : List Part} {s t : State} (h : KeptExcept a s t) (sub : a ⊆ b) : KeptExcept b s t :=
  fun p hp => h p fun ha => hp (sub ha)

theorem KeptExcept.refl (s : State) : KeptExcept [] s s := fun p _ => by cases p <;> simp [Same]

variable (s : State)

theorem State.v_replaced_kept (v : Vector Byte 16) : KeptExcept [.regs] s { s with v := v } := by
  intro p hp; cases p <;> simp_all [Same]

theorem State.setReg_kept (x : Nibble) (b : Byte) : KeptExcept [.regs] s (s.setReg x b) := s.v_replaced_kept _

theorem State.setIndex_kept (w : Word) : KeptExcept [.index] s (s.setIndex w) := by
  intro p hp; cases p <;> simp_all [Same]

theorem State.stack_replaced_kept (l : List Word) : KeptExcept [.stack] s { s with stack := l } := by
  intro p hp; cases p <;> simp_all [Same, State.reg]

theorem State.setDt_kept (b : Byte) : KeptExcept [.dt] s (s.setDt b) := by
  intro p hp; cases p <;> simp_all [Same]

theorem State.setSt_kept (b : Byte) : KeptExcept [.st] s (s.setSt b) := by
  intro p hp; cases p <;> simp_all [Same]

theorem State.setKeys_kept (k : Keys) : KeptExcept [.key] s (s.setKeys k) := by
  intro p hp; cases p <;> simp_all [Same]

theorem State.mem_replaced_kept (m : Memory) : KeptExcept [.mem] s { s with mem := m } := by
  intro p hp; cases p <;> simp_all [Same, State.reg]

end Sys2Proof.Machine
end

section
/-! PROOFS. The block stores LD_B and LD_I_VX (spec/44_index_memory.md R102, R106, R107): the bytes that fit below
`0x1000` are stored from `I` on, and the instruction completes exactly where all of them do. -/

namespace Sys2Proof.Machine

/-- R102: `s` with those of the bytes stored from `I` on whose addresses lie in memory. -/
def State.storeBlock (s : State) (bytes : List Byte) : State :=
  { s with mem := s.mem.writeBlock (s.dataAddr 0) (bytes.take (4096 - s.dataAddr 0)) }

theorem State.storeBlock_kept (s : State) (bytes : List Byte) : KeptExcept [.mem] s (s.storeBlock bytes) :=
  s.mem_replaced_kept _

/-- R102, R73: the two ends of a block store. -/
theorem finish_storeBytes (bytes : List Byte) (s : State) :
    (storeBytes bytes 0 s).finish State.toNext =
      if bytes.length ≤ 4096 - s.dataAddr 0 then .next ((s.storeBlock bytes).goTo (s.pc + 2))
      else .next ((s.storeBlock bytes).raise (.outOfBounds (max s.i.toNat 4096))) := by
  rw [storeBytes_eq]
  split
  · next h => rw [State.storeBlock, List.take_of_length_le h]; rfl
  · rfl

/-- R106: LD_B is a block store of the three digits. -/
theorem exec_ldB (x : Nibble) (s : State) :
    exec (.ldB x) s = (storeBytes (bcdDigits (s.reg x)) 0 s).finish State.toNext := rfl

/-- R107: LD_I_VX is a block store of the registers. -/
theorem exec_ldIVx (x : Nibble) (s : State) :
    exec (.ldIVx x) s = (storeBytes (s.regBlock x) 0 s).finish State.toNext := rfl

/-- R102: a block store at addresses in memory completes. -/
theorem finish_storeBytes_of_fits {bytes : List Byte} {s : State} (h : s.dataAddr bytes.length ≤ 4096) :
    (storeBytes bytes 0 s).finish State.toNext = .next ((s.storeBlock bytes).goTo (s.pc + 2)) := by
  rw [finish_storeBytes, if_pos (by simp only [State.dataAddr] at *; omega)]

/-- R102, R121: a block store off the end raises `OutOfBounds` at the first address above `0x0FFF`. -/
theorem finish_storeBytes_off_end {bytes : List Byte} {s : State} (h : 4096 < s.dataAddr bytes.length)
    (hne : 0 < bytes.length) : (storeBytes bytes 0 s).finish State.toNext =
      .next ((s.storeBlock bytes).raise (.outOfBounds (max s.i.toNat 4096))) := by
  rw [finish_storeBytes, if_neg (by simp only [State.dataAddr] at *; omega)]

/-- What memory reads after a block store. -/
theorem State.storeBlock_read (s : State) (bytes : List Byte) (j : Nat) :
    (s.storeBlock bytes).mem.read j =
      if s.i.toNat ≤ j ∧ j < 4096 then (bytes[j - s.i.toNat]?).getD (s.mem.read j) else s.mem.read j := by
  simp only [State.storeBlock, Memory.read_writeBlock, State.dataAddr, Nat.add_zero, List.getElem?_take]
  by_cases h1 : s.i.toNat ≤ j
  · by_cases h2 : j < 4096
    · rw [if_pos h1, if_pos (by omega), if_pos ⟨h1, h2⟩]
    · rw [if_pos h1, if_neg (by omega), if_neg (by omega)]; rfl
  · rw [if_neg h1, if_neg (by omega)]

/-- R102: a block store in the terms of the statements. -/
theorem State.storeBlock_blockStored (s : State) {bytes : List Byte} {count : Nat} {byteAt : Nat → Byte}
    (h : ∀ k, bytes[k]? = if k < count then some (byteAt k) else none) :
    BlockStored count byteAt s (s.storeBlock bytes) := by
  refine ⟨fun k hk ha => ?_, fun a ha => ?_⟩
  · have hj : s.i.toNat ≤ s.dataAddr k ∧ s.dataAddr k < 4096 := ⟨Nat.le_add_right .., by omega⟩
    rw [State.storeBlock_read, if_pos hj, State.dataAddr, Nat.add_sub_cancel_left, h, if_pos hk]; rfl
  · rw [State.storeBlock_read]
    split
    · next hj =>
      have hk : ¬ a - s.i.toNat < count := fun hk =>
        ha ⟨_, hk, by rw [State.dataAddr, Nat.add_sub_cancel' hj.1], by omega⟩
      rw [h, if_neg hk]; rfl
    · rfl

/-- R106: the digits of `bcdDigits` by number. -/
theorem bcdDigits_getElem? (v : Byte) (k : Nat) :
    (bcdDigits v)[k]? = if k < 3 then some (bcdDigit v k) else none := by
  match k with
  | 0 | 1 | 2 | _ + 3 => simp [bcdDigit, bcdDigits]

/-- R107: the bytes of `regBlock` by number. -/
theorem State.regBlock_getElem? (s : State) (x : Nibble) (k : Nat) :
    (s.regBlock x)[k]? = if k < x.toNat + 1 then some (s.reg (blockReg k)) else none := by
  simp only [State.regBlock, List.getElem?_map]
  split
  · next h => rw [List.getElem?_range h]; rfl
  · next h => rw [List.getElem?_eq_none (by simpa using h)]; rfl

theorem blockReg_toNat (r : Nibble) : blockReg r.toNat = r := ((blockReg_eq_iff (nibble_lt r) r).2 rfl).symm

/-- R106: the three digits as numbers. -/
theorem bcdDigit_toNat (v : Byte) : (bcdDigit v 0).toNat = v.toNat / 100 ∧ (bcdDigit v 1).toNat = v.toNat / 10 % 10 ∧
    (bcdDigit v 2).toNat = v.toNat % 10 := by
  have := v.isLt
  simp only [bcdDigit, bcdDigits, List.getD_cons_zero, List.getD_cons_succ, BitVec.toNat_ofNat]
  omega

/-- Settles O48: the block store of the three digits, all of which fit. -/
theorem ldBStoresThreeDecimalDigits : Obligations.LdBStoresThreeDecimalDigits := by
  intro x s h
  obtain ⟨stored, kept⟩ := s.storeBlock_blockStored (bcdDigits_getElem? (s.reg x))
  obtain ⟨d0, d1, d2⟩ := bcdDigit_toNat (s.reg x)
  have end3 : s.dataAddr 3 ≤ 4096 := by simp only [State.dataAddr] at *; omega
  have digit : ∀ k, k < 3 → (s.storeBlock (bcdDigits (s.reg x))).mem.read (s.dataAddr k) = bcdDigit (s.reg x) k :=
    fun k hk => stored k hk (by simp only [State.dataAddr] at *; omega)
  refine ⟨_, ⟨(exec_ldB x s).trans (finish_storeBytes_of_fits end3), rfl⟩, ?_, ?_, ?_, fun a ha => kept a ?_,
    (s.storeBlock_kept _).trans (State.goTo_kept _ _), rfl⟩
  · rw [← d0]; exact congrArg _ (digit 0 (by decide))
  · rw [← d1]; exact congrArg _ (digit 1 (by decide))
  · rw [← d2]; exact congrArg _ (digit 2 (by decide))
  · rintro ⟨k, hk, rfl, -⟩
    match k, hk with
    | 0, _ => exact ha (.inl rfl)
    | 1, _ => exact ha (.inr (.inl rfl))
    | 2, _ => exact ha (.inr (.inr rfl))

/-- Settles O49: the block store of the registers, all of which fit. -/
theorem ldIVxStoresTheRegisterBlock : Obligations.LdIVxStoresTheRegisterBlock := by
  intro x s h
  obtain ⟨stored, kept⟩ := s.storeBlock_blockStored (s.regBlock_getElem? x)
  have fits : s.dataAddr (s.regBlock x).length ≤ 4096 := by
    rw [State.regBlock_length, State.dataAddr_add]; omega
  refine ⟨_, ⟨(exec_ldIVx x s).trans (finish_storeBytes_of_fits fits), rfl⟩, fun r hr => ?_, fun a ha => kept a ?_,
    (s.storeBlock_kept _).trans (State.goTo_kept _ _), rfl⟩
  · exact (stored r.toNat (by omega) (by simp only [State.dataAddr] at *; omega)).trans
      (congrArg s.reg (blockReg_toNat r))
  · exact fun ⟨k, hk, e, _⟩ => ha ⟨k, by omega, e⟩

/-- Settles O51: the block stores where some byte does not fit. -/
theorem storesOffTheEndKeepTheBytesBelowIt : Obligations.StoresOffTheEndKeepTheBytesBelowIt := by
  constructor
  · intro x s h
    have off : 4096 < s.dataAddr 3 := by simp only [State.dataAddr] at *; omega
    exact ⟨_, .intro ((exec_ldB x s).trans (finish_storeBytes_off_end off (Nat.zero_lt_succ 2))) rfl rfl,
      s.storeBlock_blockStored (bcdDigits_getElem? _), (s.storeBlock_kept _).trans (State.raise_kept _ _)⟩
  · intro x s h
    have off : 4096 < s.dataAddr (s.regBlock x).length := by
      rw [State.regBlock_length, State.dataAddr_add]; omega
    exact ⟨_, .intro ((exec_ldIVx x s).trans (finish_storeBytes_off_end off (by simp))) rfl rfl,
      s.storeBlock_blockStored (s.regBlock_getElem? x), (s.storeBlock_kept _).trans (State.raise_kept _ _)⟩

end Sys2Proof.Machine
end

section
/-! PROOFS. The block load LD_VX_I (spec/44_index_memory.md R102, R108): the registers whose bytes lie below `0x1000`
are loaded, and the instruction completes exactly where all of them do. -/

namespace Sys2Proof.Machine

theorem RegsLoaded.kept {count k : Nat} {s t : State} (h : RegsLoaded count k s t) : KeptExcept [.regs] s t :=
  h.1 ▸ s.v_replaced_kept t.v

theorem RegsLoaded.pc {count k : Nat} {s t : State} (h : RegsLoaded count k s t) : t.pc = s.pc := by
  rw [h.1]

theorem RegsLoaded.firstError {count k : Nat} {s t : State} (h : RegsLoaded count k s t) :
    t.firstError = s.firstError := by
  rw [h.1]

/-- R108: LD_VX_I where its last address lies in memory. -/
theorem exec_ldVxI_of_fits {x : Nibble} {s : State} (h : s.dataAddr x.toNat ≤ 0x0FFF) :
    ∃ u, exec (.ldVxI x) s = .next (u.goTo (s.pc + 2)) ∧ RegsLoaded (x.toNat + 1) 0 s u := by
  have spec := loadRegs_spec (x.toNat + 1) 0 s (by have := nibble_lt x; omega)
  rw [if_pos (by simp only [State.dataAddr] at *; omega)] at spec
  obtain ⟨u, e, loaded⟩ := spec
  exact ⟨u, by simp only [exec, execLdVxI, e, Access.finish, State.toNext_eq, loaded.pc], loaded⟩

/-- R108, R121: LD_VX_I off the end of memory. -/
theorem exec_ldVxI_off_end {x : Nibble} {s : State} (h : 0x0FFF < s.dataAddr x.toNat) :
    ∃ u, exec (.ldVxI x) s = .next (u.raise (.outOfBounds (max s.i.toNat 0x1000))) ∧
      RegsLoaded (4096 - s.i.toNat) 0 s u := by
  have spec := loadRegs_spec (x.toNat + 1) 0 s (by have := nibble_lt x; omega)
  rw [if_neg (by simp only [State.dataAddr] at *; omega)] at spec
  obtain ⟨u, e, loaded⟩ := spec
  exact ⟨u, by simp only [exec, execLdVxI, e, Access.finish]; rfl, loaded⟩

/-- Settles O50: all registers up to `V[x]` are loaded. -/
theorem ldVxILoadsTheRegisterBlock : Obligations.LdVxILoadsTheRegisterBlock := by
  intro x s h
  obtain ⟨u, e, loaded⟩ := exec_ldVxI_of_fits h
  refine ⟨_, ⟨e, rfl⟩, fun r hr => ?_, fun r hr => ?_, loaded.kept.trans (State.goTo_kept _ _), rfl⟩
  · exact (loaded.2 r).trans (if_pos (by omega))
  · exact (loaded.2 r).trans (if_neg (by omega))

/-- Settles O52: the registers whose addresses lie in memory are loaded. -/
theorem loadsOffTheEndKeepTheRegistersAboveIt : Obligations.LoadsOffTheEndKeepTheRegistersAboveIt := by
  intro x s h
  obtain ⟨u, e, loaded⟩ := exec_ldVxI_off_end h
  refine ⟨_, .intro e loaded.pc loaded.firstError, fun r hr ha => ?_, fun r hr => ?_,
    loaded.kept.trans (State.raise_kept _ _)⟩ <;> simp only [State.dataAddr] at *
  · exact (loaded.2 r).trans (if_pos (by omega))
  · exact (loaded.2 r).trans (if_neg (by omega))

/-- Settles O53: the load reads the bytes that the store left, at the same addresses. -/
theorem aBlockStoredAndLoadedComesBack : Obligations.ABlockStoredAndLoadedComesBack := by
  intro x s h
  obtain ⟨t, done, stored, -, kept, -⟩ := ldIVxStoresTheRegisterBlock x s h
  refine ⟨t, done, fun u hi hm => ?_⟩
  have addr : ∀ k, u.dataAddr k = s.dataAddr k := fun k =>
    congrArg (fun w : Word => w.toNat + k) (hi.trans (kept .index (by decide)))
  obtain ⟨w, loadDone, loaded, -⟩ := ldVxILoadsTheRegisterBlock x u (by rw [addr]; exact h)
  exact ⟨w, loadDone, fun r hr => by rw [loaded r hr, addr, hm, stored r hr]⟩

end Sys2Proof.Machine
end

section
/-! PROOFS. DRW (spec/45_display.md R110 to R112): the rows whose bytes lie below `0x1000` are drawn, the instruction
completes exactly where all of them are, and drawing a sprite twice restores the display. -/

namespace Sys2Proof.Machine

/-- R112: the flag that says whether `P` holds. -/
theorem flagByte_spec {b : Bool} {P : Prop} (h : b = true ↔ P) : (P → flagByte b = 1) ∧ (¬ P → flagByte b = 0) := by
  cases b <;> simp_all [flagByte]

/-- R110: DRW where its rows lie in memory. -/
theorem exec_drw_of_fits {x y n : Nibble} {s : State} (h : n = 0 ∨ s.dataAddr (n.toNat - 1) ≤ 0x0FFF) :
    ∃ d hit, exec (.drw x y n) s = .next (({ s with display := d }.setReg flagReg (flagByte hit)).goTo (s.pc + 2)) ∧
      Drawn (spriteRows 0 n.toNat) s.spriteBits (s.reg x) (s.reg y) s.display d ∧
      (hit = true ↔ SpriteHits n.toNat (s.reg x) (s.reg y) s) := by
  have spec := drawRows_spec (s.reg x) (s.reg y) n.toNat 0 false s (by have := nibble_lt n; omega)
  have fits : n.toNat ≤ 4096 - s.dataAddr 0 := by
    rcases h with rfl | h
    · exact Nat.zero_le _
    · simp only [State.dataAddr] at *; omega
  rw [if_pos fits] at spec
  obtain ⟨d, hit, e, drawn, hits⟩ := spec
  refine ⟨d, hit, by simp only [exec, execDrw, e]; rfl, drawn, ?_⟩
  rw [hits, hits_iff_spriteHits]
  simp

/-- R110, R121: DRW off the end of memory. -/
theorem exec_drw_off_end {x y n : Nibble} {s : State} (hn : n ≠ 0) (h : 0x0FFF < s.dataAddr (n.toNat - 1)) :
    ∃ d, exec (.drw x y n) s = .next ({ s with display := d }.raise (.outOfBounds (max s.i.toNat 0x1000))) ∧
      Drawn (spriteRows 0 (4096 - s.i.toNat)) s.spriteBits (s.reg x) (s.reg y) s.display d := by
  have spec := drawRows_spec (s.reg x) (s.reg y) n.toNat 0 false s (by have := nibble_lt n; omega)
  have pos : n.toNat ≠ 0 := fun e => hn (BitVec.eq_of_toNat_eq e)
  rw [if_neg (by simp only [State.dataAddr] at *; omega)] at spec
  obtain ⟨d, e, drawn⟩ := spec
  exact ⟨d, by simp only [exec, execDrw, e]; rfl, drawn⟩

/-- Settles O55: the rows drawn, then the flag of the hit, then the move of `pc`. -/
theorem drwDrawsTheSpriteAndReportsCollision : Obligations.DrwDrawsTheSpriteAndReportsCollision := by
  intro x y n s h
  obtain ⟨d, hit, e, drawn, hits⟩ := exec_drw_of_fits (x := x) (y := y) h
  obtain ⟨flag, noFlag⟩ := flagByte_spec hits
  refine ⟨_, ⟨e, rfl⟩, drawn.spriteDrawn, fun hh => ?_, fun hh => ?_, fun r hr => ?_, ?_, rfl⟩
  · rw [← flag hh]; simp [flagReg]
  · rw [← noFlag hh]; simp [flagReg]
  · exact (State.setReg_reg _ _ _ r).trans (if_neg hr)
  · exact (((s.display_replaced_kept d).trans (State.setReg_kept _ _ _)).trans (State.goTo_kept _ _)).mono (by decide)

/-- Settles O56: the rows that lie in memory are drawn, and the error is raised on what they left. -/
theorem drwOffTheEndKeepsTheRowsDrawn : Obligations.DrwOffTheEndKeepsTheRowsDrawn := by
  intro x y n s hn h
  obtain ⟨d, e, drawn⟩ := exec_drw_off_end (x := x) (y := y) hn h
  exact ⟨_, .intro e rfl rfl, drawn.spriteDrawn, (s.display_replaced_kept d).trans (State.raise_kept _ _)⟩

/-- R110: a pixel exclusive-ored twice with its sprite bit is as it was. -/
theorem SpriteDrawn.twice {rows : Nat} {vx vy : Byte} {s t u : State} (first : SpriteDrawn rows vx vy s t)
    (second : SpriteDrawn rows vx vy t u) (bits : ∀ r c, t.spriteBits r c = s.spriteBits r c) :
    u.display = s.display := by
  refine Display.eq_of_pixel fun col row => ?_
  by_cases covered : ∃ r c, r < rows ∧ c < 8 ∧ SpritePixel vx vy r c col row
  · obtain ⟨r, c, hr, hc, hp⟩ := covered
    rw [second.1 r c col row hr hc hp, first.1 r c col row hr hc hp, bits, Bool.xor_assoc, Bool.xor_self, Bool.xor_false]
  · have clear : ∀ r c, r < rows → c < 8 → ¬ SpritePixel vx vy r c col row := fun r c hr hc hp =>
      covered ⟨r, c, hr, hc, hp⟩
    rw [second.2 col row clear, first.2 col row clear]

/-- R112: after a draw without a hit, exactly the sprite's 1 bits are lit beneath it. -/
theorem SpriteDrawn.hits_iff_hasLitBit {rows : Nat} {vx vy : Byte} {s t : State} (h : SpriteDrawn rows vx vy s t)
    (bits : ∀ r c, t.spriteBits r c = s.spriteBits r c) (noHit : ¬ SpriteHits rows vx vy s) :
    SpriteHits rows vx vy t ↔ SpriteHasLitBit rows s := by
  constructor
  · rintro ⟨r, c, -, -, hr, hc, -, hb, -⟩
    exact ⟨r, c, hr, hc, bits r c ▸ hb⟩
  · rintro ⟨r, c, hr, hc, hb⟩
    have hp : SpritePixel vx vy r c (spriteCol vx c) (spriteRow vy r) := spritePixel_iff.2 ⟨rfl, rfl⟩
    have dark : s.display.pixel (spriteCol vx c) (spriteRow vy r) = false :=
      Bool.eq_false_iff.2 fun lit => noHit ⟨r, c, _, _, hr, hc, hp, hb, lit⟩
    exact ⟨r, c, _, _, hr, hc, hp, bits r c ▸ hb, by rw [h.1 r c _ _ hr hc hp, dark, hb]; rfl⟩

/-- Settles O57: the first draw leaves the coordinates, `I` and memory, so that the second draws the same sprite at the
same place. -/
theorem drawingTwiceRestoresTheDisplay : Obligations.DrawingTwiceRestoresTheDisplay := by
  intro x y n s hx hy h
  obtain ⟨t, done, first, -, -, regs, kept, -⟩ := drwDrawsTheSpriteAndReportsCollision x y n s h
  have index : t.i = s.i := kept .index (by decide)
  have mem : ∀ a, t.mem.read a = s.mem.read a := kept .mem (by decide)
  have bits : ∀ r c, t.spriteBits r c = s.spriteBits r c := fun r c => by simp only [State.spriteBits, index, mem]
  have again := drwDrawsTheSpriteAndReportsCollision x y n t (by simpa only [State.dataAddr, index] using h)
  rw [regs x hx, regs y hy] at again
  obtain ⟨u, done', second, flag, noFlag, -⟩ := again
  refine ⟨t, u, done, done', first.twice second bits, fun noHit => ?_⟩
  rw [first.hits_iff_hasLitBit bits noHit] at flag noFlag
  exact ⟨flag, noFlag⟩

end Sys2Proof.Machine
end


section
/-! PROOFS. Everything an executed instruction can do, said once (spec/40_cycle_engine.md R71 to R75): it changes the
pieces of state of its own family and moves `pc`, or its accesses fail on a listed cause and the error is raised on what
they left. The frames over the whole instruction set are read off this. -/

namespace Sys2Proof.Machine

/-! ## What can change -/

/-- What the accesses of an instruction leave, whether or not one of them fails (R73, R128). -/
inductive Accessed (s : State) : Instr → State → Prop
  | nothing (i : Instr) : Accessed s i s
  | loaded (x : Nibble) (v : Vector Byte 16)
      (above : ∀ r : Nibble, x.toNat < r.toNat → { s with v := v }.reg r = s.reg r) :
      Accessed s (.ldVxI x) { s with v := v }
  | storedDigits (x : Nibble) : Accessed s (.ldB x) (s.storeBlock (bcdDigits (s.reg x)))
  | storedRegs (x : Nibble) : Accessed s (.ldIVx x) (s.storeBlock (s.regBlock x))
  | drawn (x y n : Nibble) (d : Display) : Accessed s (.drw x y n) { s with display := d }

/-- What a completed instruction leaves, `pc` and the result apart. -/
inductive Effect (s : State) : Instr → State → Prop
  | accessed {i : Instr} {u : State} (h : Accessed s i u) : Effect s i u
  | regs (i : Instr) (v : Vector Byte 16)
      (others : ∀ r, writesReg i r = false → { s with v := v }.reg r = s.reg r) : Effect s i { s with v := v }
  | ldI (nnn : Addr) : Effect s (.ldI nnn) (s.setIndex (zextAddr nnn))
  | ldF (x : Nibble) (w : Word) : Effect s (.ldF x) (s.setIndex w)
  | addI (x : Nibble) (w : Word) (f : Byte) : Effect s (.addI x) ((s.setIndex w).setReg flagReg f)
  | call (nnn : Addr) : Effect s (.call nnn) (s.push (s.pc + 2))
  | ret (top : Word) (rest : List Word) (h : s.stack = top :: rest) : Effect s .ret { s with stack := rest }
  | ldDtVx (x : Nibble) : Effect s (.ldDtVx x) (s.setDt (s.reg x))
  | ldStVx (x : Nibble) : Effect s (.ldStVx x) (s.setSt (s.reg x))
  | cls : Effect s .cls { s with display := Display.dark }
  | drw (x y n : Nibble) (d : Display) (f : Byte) :
      Effect s (.drw x y n) ({ s with display := d }.setReg flagReg f)

/-- R72, R15: where an instruction can move `pc`: it stays, passes to the next instruction or skips one, jumps to an
address field or to one plus a byte, or returns. -/
def NextPc (s : State) (w : Word) : Prop :=
  w = s.pc ∨ w = s.pc + 2 ∨ w = s.pc + 4 ∨ w.toNat ≤ 0x10FE ∨ w ∈ s.stack

/-- The two ways an instruction ends (R72, R73). -/
inductive Ended (s : State) (i : Instr) : State → Prop
  | done {u : State} {w : Word} (effect : Effect s i u) (target : NextPc s w) (noCause : ∀ e, ¬ ErrorCause i s e) :
      Ended s i (u.goTo w)
  | failed {u : State} {e : EngineError} (access : Accessed s i u) (cause : ErrorCause i s e) : Ended s i (u.raise e)

/-! ## The endings of the families -/

/-- `exec` answers a next state, in which the instruction has ended. -/
def Ends (i : Instr) (s : State) : Prop := ∃ t, exec i s = .next t ∧ Ended s i t

section
variable {i : Instr} {s : State}

theorem Ends.of_jump {w : Word} (h : exec i s = .next (s.goTo w)) (target : NextPc s w)
    (noCause : ∀ e, ¬ ErrorCause i s e) : Ends i s :=
  ⟨_, h, .done (.accessed (.nothing i)) target noCause⟩

theorem Ends.of_skipIf {taken : Bool} (h : exec i s = .next (s.skipIf taken)) (noCause : ∀ e, ¬ ErrorCause i s e) :
    Ends i s := by
  refine .of_jump h ?_ noCause
  cases taken
  · exact .inr (.inl rfl)
  · exact .inr (.inr (.inl rfl))

theorem Ends.of_effect {u : State} (h : exec i s = .next (u.goTo (s.pc + 2))) (effect : Effect s i u)
    (noCause : ∀ e, ¬ ErrorCause i s e) : Ends i s :=
  ⟨_, h, .done effect (.inr (.inl rfl)) noCause⟩

theorem Ends.of_raise {u : State} {e : EngineError} (h : exec i s = .next (u.raise e)) (access : Accessed s i u)
    (cause : ErrorCause i s e) : Ends i s :=
  ⟨_, h, .failed access cause⟩

theorem Ends.of_plainResult {x : Nibble} {r : Byte} (h : exec i s = .next (s.plainResult x r))
    (writes : ∀ q, writesReg i q = (q == x)) (noCause : ∀ e, ¬ ErrorCause i s e) : Ends i s := by
  obtain ⟨-, others, -⟩ := s.plainResult_spec x r
  exact .of_effect h (.regs i _ fun q hq => others q (by simpa [writes] using hq)) noCause

theorem Ends.of_flaggedResult {x : Nibble} {r f : Byte} (h : exec i s = .next (s.flaggedResult x r f))
    (writes : ∀ q, writesReg i q = (q == x || q == flagReg)) (noCause : ∀ e, ¬ ErrorCause i s e) : Ends i s := by
  obtain ⟨-, -, others, -⟩ := s.flaggedResult_spec x r f
  exact .of_effect h (.regs i _ fun q hq => others q (by simpa [writes, flagReg] using hq)) noCause

end

theorem ends_ldVxI (x : Nibble) (s : State) : Ends (.ldVxI x) s := by
  have accessed : ∀ {count u}, RegsLoaded count 0 s u → count ≤ x.toNat + 1 → Accessed s (.ldVxI x) u := by
    rintro count u ⟨hu, hr⟩ hc
    rw [hu]
    exact .loaded x _ fun r h => (hr r).trans (if_neg (by omega))
  by_cases h : s.dataAddr x.toNat ≤ 0x0FFF
  · obtain ⟨u, e, loaded⟩ := exec_ldVxI_of_fits h
    exact .of_effect e (.accessed (accessed loaded le_rfl)) fun _ c => absurd c.1 (Nat.not_lt.2 h)
  · obtain ⟨u, e, loaded⟩ := exec_ldVxI_off_end (Nat.not_le.1 h)
    exact .of_raise e (accessed loaded (by simp only [State.dataAddr] at h; omega)) ⟨Nat.not_le.1 h, rfl⟩

theorem ends_ldIVx (x : Nibble) (s : State) : Ends (.ldIVx x) s := by
  have len : s.dataAddr (s.regBlock x).length = s.dataAddr x.toNat + 1 := by
    rw [State.regBlock_length, State.dataAddr_add]
  by_cases h : s.dataAddr x.toNat ≤ 0x0FFF
  · exact .of_effect ((exec_ldIVx x s).trans (finish_storeBytes_of_fits (by omega))) (.accessed (.storedRegs x))
      fun _ c => absurd c.1 (Nat.not_lt.2 h)
  · exact .of_raise ((exec_ldIVx x s).trans (finish_storeBytes_off_end (by omega) (by simp))) (.storedRegs x)
      ⟨Nat.not_le.1 h, rfl⟩

theorem ends_ldB (x : Nibble) (s : State) : Ends (.ldB x) s := by
  have len : s.dataAddr (bcdDigits (s.reg x)).length = s.dataAddr 2 + 1 := rfl
  by_cases h : s.dataAddr 2 ≤ 0x0FFF
  · exact .of_effect ((exec_ldB x s).trans (finish_storeBytes_of_fits (by omega))) (.accessed (.storedDigits x))
      fun _ c => absurd c.1 (Nat.not_lt.2 h)
  · exact .of_raise ((exec_ldB x s).trans (finish_storeBytes_off_end (by omega) (Nat.zero_lt_succ 2))) (.storedDigits x)
      ⟨Nat.not_le.1 h, rfl⟩

theorem ends_drw (x y n : Nibble) (s : State) : Ends (.drw x y n) s := by
  by_cases h : n = 0 ∨ s.dataAddr (n.toNat - 1) ≤ 0x0FFF
  · obtain ⟨d, hit, e, -⟩ := exec_drw_of_fits (x := x) (y := y) h
    exact .of_effect e (.drw x y n d _) fun _ c => h.elim c.1 (Nat.not_le.2 c.2.1)
  · obtain ⟨hn, ha⟩ := not_or.1 h
    obtain ⟨d, e, -⟩ := exec_drw_off_end (x := x) (y := y) hn (Nat.not_le.1 ha)
    exact .of_raise e (.drawn x y n d) ⟨hn, Nat.not_le.1 ha, rfl⟩

/-! ## Key numbers (R116 to R118) -/

theorem State.keyOperand_of_lt {s : State} {x : Nibble} (h : (s.reg x).toNat < 16) :
    s.keyOperand x = .ok ⟨(s.reg x).toNat, h⟩ := dif_pos h

theorem State.keyOperand_of_gt {s : State} {x : Nibble} (h : 15 < (s.reg x).toNat) :
    s.keyOperand x = .error (.outOfBounds (s.reg x).toNat) := dif_neg (Nat.not_lt.2 h)

/-- R116. -/
theorem exec_skp_of_lt {s : State} {x : Nibble} (h : (s.reg x).toNat < 16) :
    exec (.skp x) s = .next (s.skipIf (s.keyDown ⟨(s.reg x).toNat, h⟩)) := by
  simp only [exec, execSkp, State.keyOperand_of_lt h]

/-- R117. -/
theorem exec_sknp_of_lt {s : State} {x : Nibble} (h : (s.reg x).toNat < 16) :
    exec (.sknp x) s = .next (s.skipIf (!s.keyDown ⟨(s.reg x).toNat, h⟩)) := by
  simp only [exec, execSknp, State.keyOperand_of_lt h]

/-- R116, R121. -/
theorem exec_skp_of_gt {s : State} {x : Nibble} (h : 15 < (s.reg x).toNat) :
    exec (.skp x) s = .next (s.raise (.outOfBounds (s.reg x).toNat)) := by
  simp only [exec, execSkp, State.keyOperand_of_gt h]

/-- R117, R121. -/
theorem exec_sknp_of_gt {s : State} {x : Nibble} (h : 15 < (s.reg x).toNat) :
    exec (.sknp x) s = .next (s.raise (.outOfBounds (s.reg x).toNat)) := by
  simp only [exec, execSknp, State.keyOperand_of_gt h]

/-- R118: with no key pressed LD_VX_K stalls. -/
theorem exec_ldVxK_of_none {s : State} {x : Nibble} (h : s.firstKey = none) :
    exec (.ldVxK x) s = .next (s.goTo s.pc) := by
  simp only [exec, execLdVxK, State.waitKey, h, State.stay_eq]

/-- R118: else its result is the least pressed key. -/
theorem exec_ldVxK_of_some {s : State} {x : Nibble} {k : Fin 16} (h : s.firstKey = some k) :
    exec (.ldVxK x) s = .next (s.plainResult x (BitVec.ofNat 8 k.val)) := by
  simp only [exec, execLdVxK, State.waitKey, h, State.plainResult]

/-- R78. -/
theorem exec_ret_of_stack_cons {s : State} {top : Word} {rest : List Word} (h : s.stack = top :: rest) :
    exec .ret s = .next ({ s with stack := rest }.goTo top) := by
  simp only [exec, execRet, h]

/-- R80: the call stack is unbounded. -/
theorem exec_call (nnn : Addr) (s : State) : exec (.call nnn) s = .next ((s.push (s.pc + 2)).goTo (zextAddr nnn)) := rfl

/-- R79: an address field is a `pc` below `0x1000`. -/
theorem zextAddr_le (nnn : Addr) : (zextAddr nnn).toNat ≤ 0x0FFF := by
  rw [zextAddr_toNat]; omega

/-- R81: the sum of JP_V0 does not wrap. -/
theorem jpV0_target_toNat (nnn : Addr) (b : Byte) : (zextAddr nnn + zextByte b).toNat = nnn.toNat + b.toNat := by
  rw [BitVec.toNat_add, zextAddr_toNat, zextByte_toNat]; omega

/-! ## Every instruction ends -/

/-- R75: every instruction answers a next state, in one of the two ways. -/
theorem exec_ends (i : Instr) (s : State) : Ends i s := by
  cases i with
  | ldImm | addImm | ldReg | or | and | xor | rnd | ldVxDt => exact .of_plainResult rfl (fun _ => rfl) fun _ => id
  | addReg | sub | shr | subn | shl => exact .of_flaggedResult rfl (fun _ => rfl) fun _ => id
  | seImm | sneImm | seReg | sneReg => exact .of_skipIf rfl fun _ => id
  | cls => exact .of_effect rfl .cls fun _ => id
  | ldI nnn => exact .of_effect rfl (.ldI nnn) fun _ => id
  | ldF x => exact .of_effect rfl (.ldF x _) fun _ => id
  | addI x => exact .of_effect rfl (.addI x _ _) fun _ => id
  | ldDtVx x => exact .of_effect rfl (.ldDtVx x) fun _ => id
  | ldStVx x => exact .of_effect rfl (.ldStVx x) fun _ => id
  | sys nnn => exact .of_raise rfl (.nothing _) rfl
  | jp nnn => exact .of_jump rfl (.inr (.inr (.inr (.inl ((zextAddr_le nnn).trans (by decide)))))) fun _ => id
  | jpV0 nnn =>
    refine .of_jump rfl (.inr (.inr (.inr (.inl ?_)))) fun _ => id
    rw [jpV0_target_toNat]; omega
  | call nnn =>
    exact ⟨_, exec_call nnn s, .done (.call nnn) (.inr (.inr (.inr (.inl ((zextAddr_le nnn).trans (by decide))))))
      fun _ => id⟩
  | ret =>
    cases h : s.stack with
    | nil => exact .of_raise (exec_ret_of_stack_nil h) (.nothing _) ⟨h, rfl⟩
    | cons top rest =>
      exact ⟨_, exec_ret_of_stack_cons h, .done (.ret top rest h)
        (.inr (.inr (.inr (.inr (h ▸ List.mem_cons_self))))) fun _ c => nomatch h.symm.trans c.1⟩
  | skp x =>
    rcases Nat.lt_or_ge (s.reg x).toNat 16 with h | h
    · exact .of_skipIf (exec_skp_of_lt h) fun _ c => absurd c.1 (by omega)
    · exact .of_raise (exec_skp_of_gt h) (.nothing _) ⟨h, rfl⟩
  | sknp x =>
    rcases Nat.lt_or_ge (s.reg x).toNat 16 with h | h
    · exact .of_skipIf (exec_sknp_of_lt h) fun _ c => absurd c.1 (by omega)
    · exact .of_raise (exec_sknp_of_gt h) (.nothing _) ⟨h, rfl⟩
  | ldVxK x =>
    cases h : s.firstKey with
    | none => exact .of_jump (exec_ldVxK_of_none h) (.inl rfl) fun _ => id
    | some k => exact .of_plainResult (exec_ldVxK_of_some h) (fun _ => rfl) fun _ => id
  | drw x y n => exact ends_drw x y n s
  | ldB x => exact ends_ldB x s
  | ldIVx x => exact ends_ldIVx x s
  | ldVxI x => exact ends_ldVxI x s

/-- The inversion of `exec`. -/
theorem exec_ended {i : Instr} {s t : State} (h : exec i s = .next t) : Ended s i t := by
  obtain ⟨u, e, ended⟩ := exec_ends i s
  cases h.symm.trans e
  exact ended

/-- An instruction has at most one cause of error. -/
theorem ErrorCause.unique {i : Instr} {s : State} {e e' : EngineError} (h : ErrorCause i s e)
    (h' : ErrorCause i s e') : e = e' := by
  cases i with
  | sys => exact Eq.trans h h'.symm
  | ret | skp | sknp | ldB | ldIVx | ldVxI => exact h.2.trans h'.2.symm
  | drw => exact h.2.2.trans h'.2.2.symm
  | _ => exact h.elim

/-! ## What the effects leave -/

section
variable {i : Instr} {s u t : State}

/-- The pieces of state that no access touches. -/
theorem Accessed.kept (h : Accessed s i u) : KeptExcept [.regs, .mem, .display] s u := by
  cases h with
  | nothing => exact (KeptExcept.refl s).mono (by decide)
  | loaded x v => exact (s.v_replaced_kept v).mono (by decide)
  | storedDigits | storedRegs => exact (s.storeBlock_kept _).mono (by decide)
  | drawn x y n d => exact (s.display_replaced_kept d).mono (by decide)

theorem Accessed.pc (h : Accessed s i u) : u.pc = s.pc := by cases h <;> rfl

/-- The pieces of state that no instruction touches. -/
theorem Effect.kept (h : Effect s i u) : KeptExcept [.regs, .index, .stack, .dt, .st, .mem, .display] s u := by
  cases h with
  | accessed h => exact h.kept.mono (by decide)
  | regs i v => exact (s.v_replaced_kept v).mono (by decide)
  | ldI | ldF => exact (s.setIndex_kept _).mono (by decide)
  | addI => exact ((s.setIndex_kept _).trans (State.setReg_kept _ _ _)).mono (by decide)
  | call | ret => exact (s.stack_replaced_kept _).mono (by decide)
  | ldDtVx => exact (s.setDt_kept _).mono (by decide)
  | ldStVx => exact (s.setSt_kept _).mono (by decide)
  | cls => exact (s.display_replaced_kept _).mono (by decide)
  | drw => exact ((s.display_replaced_kept _).trans (State.setReg_kept _ _ _)).mono (by decide)

/-- R19, R25, R98: no instruction touches `acc`, the latch or the host's turn. -/
theorem Ended.kept (h : Ended s i t) :
    KeptExcept [.regs, .index, .stack, .dt, .st, .mem, .display, .errors] s t := by
  cases h with
  | done effect => exact (effect.kept.trans (State.goTo_kept _ _)).mono (by decide)
  | failed access => exact (access.kept.trans (State.raise_kept _ _)).mono (by decide)

/-- R11, R12, R100, R101. -/
theorem Accessed.reg (h : Accessed s i u) {x : Nibble} (hx : writesReg i x = false) : u.reg x = s.reg x := by
  cases h with
  | loaded y v above => exact above x (by simpa [writesReg] using hx)
  | _ => rfl

theorem Effect.reg (h : Effect s i u) {x : Nibble} (hx : writesReg i x = false) : u.reg x = s.reg x := by
  cases h with
  | accessed h => exact h.reg hx
  | regs i v others => exact others x hx
  | addI | drw => exact (State.setReg_reg _ _ _ x).trans (if_neg (by simpa [writesReg] using hx))
  | _ => rfl

theorem Accessed.mem (h : Accessed s i u) :
    MemKeptExcept (fun a => ∃ k, k < storeCount i ∧ a = s.dataAddr k ∧ a ≤ 0x0FFF) s u := by
  cases h with
  | storedDigits x => exact (s.storeBlock_blockStored (bcdDigits_getElem? _)).2
  | storedRegs x => exact (s.storeBlock_blockStored (s.regBlock_getElem? x)).2
  | _ => exact fun _ _ => rfl

theorem Effect.mem (h : Effect s i u) :
    MemKeptExcept (fun a => ∃ k, k < storeCount i ∧ a = s.dataAddr k ∧ a ≤ 0x0FFF) s u := by
  cases h with
  | accessed h => exact h.mem
  | _ => exact fun _ _ => rfl

theorem Ended.dt (h : Ended s i t) (hi : ∀ x, i ≠ .ldDtVx x) : t.dt = s.dt := by
  cases h with
  | failed access => exact access.kept .dt (by decide)
  | done effect =>
    cases effect with
    | accessed h => exact h.kept .dt (by decide)
    | ldDtVx x => exact absurd rfl (hi x)
    | _ => rfl

theorem Ended.st (h : Ended s i t) (hi : ∀ x, i ≠ .ldStVx x) : t.st = s.st := by
  cases h with
  | failed access => exact access.kept .st (by decide)
  | done effect =>
    cases effect with
    | accessed h => exact h.kept .st (by decide)
    | ldStVx x => exact absurd rfl (hi x)
    | _ => rfl

end

/-! ## The frames of the instruction set -/

/-- Settles O15: of the effects only those of LD_DT_VX and LD_ST_VX touch a timer. -/
theorem onlyTheirOwnInstructionsWriteTheTimers : Obligations.OnlyTheirOwnInstructionsWriteTheTimers := fun _ _ _ h =>
  ⟨(exec_ended h).kept .acc (by decide), (exec_ended h).dt, (exec_ended h).st⟩

/-- Settles O17: by the effects. -/
theorem noInstructionWritesAnyOtherRegister : Obligations.NoInstructionWritesAnyOtherRegister := by
  intro i s t x h hx
  cases exec_ended h with
  | done effect => exact effect.reg hx
  | failed access => exact access.reg hx

/-- Settles O18: each of the three pieces is in the effects of its own instructions only. -/
theorem indexStackAndDisplayHaveTheirOwnWriters : Obligations.IndexStackAndDisplayHaveTheirOwnWriters := by
  intro i s t h
  have index : ∀ {u}, Accessed s i u → u.i = s.i := fun a => a.kept .index (by decide)
  have stack : ∀ {u}, Accessed s i u → u.stack = s.stack := fun a => a.kept .stack (by decide)
  have display : ∀ {u}, Accessed s i u → u.display = s.display ∨ ∃ x y n, i = .drw x y n := by
    intro u a
    cases a with
    | drawn x y n => exact .inr ⟨x, y, n, rfl⟩
    | _ => exact .inl rfl
  cases exec_ended h with
  | failed a =>
    exact ⟨fun n => absurd (index a) n, fun n => absurd (stack a) n, fun n => .inr ((display a).resolve_left n)⟩
  | done effect =>
    refine ⟨fun n => ?_, fun n => ?_, fun n => ?_⟩
    · cases effect with
      | accessed a => exact absurd (index a) n
      | ldI nnn => exact .inl ⟨nnn, rfl⟩
      | addI x => exact .inr (.inl ⟨x, rfl⟩)
      | ldF x => exact .inr (.inr ⟨x, rfl⟩)
      | _ => exact absurd rfl n
    · cases effect with
      | accessed a => exact absurd (stack a) n
      | call nnn => exact .inl ⟨nnn, rfl⟩
      | ret => exact .inr rfl
      | _ => exact absurd rfl n
    · cases effect with
      | accessed a => exact .inr ((display a).resolve_left n)
      | cls => exact .inl rfl
      | drw => exact .inr ⟨_, _, _, rfl⟩
      | _ => exact absurd rfl n

/-- Settles O19: by the effects; the two stores are block stores. -/
theorem onlyStoresChangeMemoryAndOnlyFromIndexOn : Obligations.OnlyStoresChangeMemoryAndOnlyFromIndexOn := by
  intro i s t h
  cases exec_ended h with
  | done effect => exact effect.mem
  | failed access => exact access.mem

/-! ## Errors -/

/-- Settles O22: an instruction fails on its cause and completes only without one. -/
theorem instructionsRaiseExactlyTheListedErrors : Obligations.InstructionsRaiseExactlyTheListedErrors := by
  intro i s t h e
  cases exec_ended h with
  | done effect target noCause => exact ⟨fun r => (nomatch r), fun c => absurd c (noCause e)⟩
  | failed access cause =>
    exact ⟨fun r => AdvanceResult.error.inj r ▸ cause, fun c => congrArg AdvanceResult.error (cause.unique c)⟩

/-- Settles O23: an error is raised on what the accesses left, which is registers of LD_VX_I, memory of the stores,
pixels of DRW. -/
theorem anErrorLeavesEverythingButPartialEffects : Obligations.AnErrorLeavesEverythingButPartialEffects := by
  intro i s t e h he
  cases exec_ended h with
  | done => cases he
  | failed access =>
    refine ⟨access.pc, (access.kept.trans (State.raise_kept _ _)).mono (by decide), fun n => ?_, fun n m => ?_,
      fun n => ?_⟩
    · cases access with
      | loaded x => exact absurd rfl (n x)
      | _ => exact fun _ => rfl
    · cases access with
      | storedDigits x => exact absurd rfl (n x)
      | storedRegs x => exact absurd rfl (m x)
      | _ => exact fun _ => rfl
    · cases access with
      | drawn x y k => exact absurd rfl (n x y k)
      | _ => exact fun _ _ => rfl

end Sys2Proof.Machine
end


section
/-! PROOFS. The step (spec/40_cycle_engine.md sections 1 to 6): what the fetch reads, the step for each answer of fetch
and decoder, and that every step answers a next state. -/

namespace Sys2Proof.Machine

/-- R37, R69: the fetch in plain arithmetic. -/
theorem State.fetch_eq (s : State) : s.fetch =
    if 4095 < s.pc.toNat then .error (.outOfBounds s.pc.toNat)
    else if 4095 < s.pc.toNat + 1 then .error (.outOfBounds (s.pc.toNat + 1))
    else .ok (s.mem.read s.pc.toNat, s.mem.read (s.pc.toNat + 1)) := by
  rw [State.fetch]
  split_ifs with h0 h1
  · rw [State.memRead_of_ge h0]
  · rw [State.memRead_of_lt (by omega), State.memRead_of_ge h1]
  · rw [State.memRead_of_lt (by omega), State.memRead_of_lt (by omega)]

/-- R69: where both bytes lie in memory, the fetch reads them. -/
theorem State.fetch_of_le {s : State} (h : s.pc.toNat ≤ 0x0FFE) :
    s.fetch = .ok (s.mem.read s.pc.toNat, s.mem.read (s.pc.toNat + 1)) := by
  rw [State.fetch_eq, if_neg (by omega), if_neg (by omega)]

/-- R69: an address that could be fetched from is at most `0x0FFE`. -/
theorem State.pc_le_of_fetch_ok {s : State} {b : Byte × Byte} (h : s.fetch = .ok b) : s.pc.toNat ≤ 0x0FFE := by
  rw [State.fetch_eq] at h
  split_ifs at h
  omega

/-- R69, R73: a step whose fetch fails raises its error on the prepared state. -/
theorem step_of_fetch_error {s : State} {e : EngineError} (h : s.beginTurn.fetch = .error e) :
    step s = .next (s.prepared.raise e) := by
  rw [step_eq, State.runInstruction, State.prepared_fetch]
  simp only [h]

/-- Settles O10: the fetch by its two checks; a failed one is raised on the prepared state. -/
theorem fetchReadsTwoBytesOrEndsTheAdvance : Obligations.FetchReadsTwoBytesOrEndsTheAdvance :=
  ⟨State.fetch_eq, fun b => (hi_append_lo b).symm, fun s _ h =>
    ⟨_, step_of_fetch_error h, rfl, rfl, s.prepared.raise_kept _, s.prepared_raise_kept _⟩⟩

/-- Settles O12: a failed fetch and a failed decode raise an error, and every instruction ends. -/
theorem everyStepAnswersANextState : Obligations.EveryStepAnswersANextState := by
  intro s
  cases hf : s.beginTurn.fetch with
  | error e => exact ⟨_, step_of_fetch_error hf⟩
  | ok b =>
    cases hd : decode b.1 b.2 with
    | error e => exact ⟨_, step_of_decode_error hf hd⟩
    | ok i =>
      obtain ⟨t, h, -⟩ := exec_ends i s.prepared
      exact ⟨t, (step_of_decode_ok hf hd).trans h⟩

/-- Settles O8: the fetch reads the two bytes, and preparing is the timer phase on the random byte supplied. -/
theorem stepRunsTheDecodedInstruction : Obligations.StepRunsTheDecodedInstruction := by
  refine ⟨fun s i hpc hd => step_of_decode_ok (State.fetch_of_le hpc) hd, fun s => ?_, fun s => rfl, fun s hops => ?_⟩
  · exact ⟨rfl, rfl, s.beginTurn_result, s.beginTurn_firstError, s.beginTurn_script, s.beginTurn_calls, rfl, rfl, rfl,
      s.prepared_kept⟩
  · rw [s.beginTurn_of_nil hops]
    refine ⟨rfl, fun p hp => ?_⟩
    cases p <;> simp_all [Same, State.reg]

/-! ## Placing a word (log entry 29) -/

/-- The address a word is placed at, as `PlacedWordIsTheNextInstructionRun` states it. -/
theorem State.fetchablePc_eq (s : State) : s.fetchablePc = if s.pc.toNat ≤ 0x0FFE then s.pc else 0x0200 := by
  simp only [State.fetchablePc, memSize_eq, Nat.succ_lt_succ_iff, Nat.lt_succ_iff]
  rfl

theorem State.fetchablePc_le (s : State) : s.fetchablePc.toNat ≤ 0x0FFE := by
  rw [State.fetchablePc_eq]
  split_ifs with h
  · exact h
  · decide

/-- What memory reads after a word is placed. -/
theorem State.placeWord_read (s : State) (op : Word) (a : Nat) : (s.placeWord op).mem.read a =
    if a = s.fetchablePc.toNat + 1 then wordLo op else if a = s.fetchablePc.toNat then wordHi op else s.mem.read a := by
  simp only [State.placeWord, Memory.read_write]

/-- The host's turn after a word is placed does no operation, and its fetch reads the word. -/
theorem State.placeWord_fetch (s : State) (op : Word) :
    (s.placeWord op).beginTurn.fetch = .ok (wordHi op, wordLo op) := by
  have fetched := State.fetch_of_le (s := (s.placeWord op).beginTurn) s.fetchablePc_le
  rw [fetched]
  change Except.ok ((s.placeWord op).mem.read s.fetchablePc.toNat, (s.placeWord op).mem.read (s.fetchablePc.toNat + 1)) = _
  simp [State.placeWord_read]

/-- A row of the opcode table is looked up in the decoder (R46). -/
theorem decode_of_decodeTableWord {nbits w : Nat} {i : Instr} (h : decodeTableWord nbits w = some i) :
    decode (wordHi (BitVec.ofNat 16 (w % 2 ^ nbits))) (wordLo (BitVec.ofNat 16 (w % 2 ^ nbits))) = .ok i := by
  unfold decodeTableWord at h
  split at h
  · next hd => cases h; exact hd
  · cases h

/-- Settles O9: the next fetch reads the word placed, and the placing changes `pc`, two bytes and the next turn. -/
theorem placedWordIsTheNextInstructionRun : Obligations.PlacedWordIsTheNextInstructionRun := by
  intro s w i h
  refine ⟨step_of_decode_ok (s.placeWord_fetch _) (decode_of_decodeTableWord h), s.fetchablePc_eq, rfl, fun p hp => ?_,
    fun a ha => ?_, rfl, rfl, rfl⟩
  · cases p with
    | mem | host => simp at hp
    | regs => exact fun _ => rfl
    | display => exact fun _ _ => rfl
    | index | stack | dt | st | acc | key | errors => rfl
  · obtain ⟨h0, h1⟩ := not_or.1 ha
    exact (s.placeWord_read _ a).trans ((if_neg h1).trans (if_neg h0))

end Sys2Proof.Machine
end

section
/-! PROOFS. The invariant (spec/10_state.md sections 3 and 4, spec/20_memory.md section 1): reset meets it, and the
host's operations, the timer phase and every ending of an instruction keep it. -/

namespace Sys2Proof.Machine

/-- Settles O25: memory with nothing listed is canonical, the stack is empty, and no error has been returned. -/
theorem resetMeetsTheInvariant : Obligations.ResetMeetsTheInvariant := by
  refine ⟨⟨.nil, fun _ h => ?_⟩, by decide, fun _ h => ?_, .inl rfl⟩ <;> exact absurd h List.not_mem_nil

/-- R140, R145, R146: every operation of the host keeps the invariant. -/
theorem State.perform_inv {s : State} (op : HostOp) (inv : MachineInv s) : MachineInv (s.perform op) := by
  obtain ⟨mem, pc, stack, record⟩ := inv
  cases op with
  | reset =>
    obtain ⟨mem0, pc0, stack0, -⟩ := resetMeetsTheInvariant
    exact ⟨mem0, pc0, stack0, record⟩
  | load p => exact ⟨Memory.wf_writeBlock mem p.fits, pc, stack, record⟩
  | setKeys | display | inspect => exact ⟨mem, pc, stack, record⟩

/-- R149: the host's turn up to the fetch keeps the invariant. -/
theorem State.prepared_inv {s : State} (inv : MachineInv s) : MachineInv s.prepared :=
  show MachineInv s.beginTurn from State.performAll_induction (P := MachineInv) inv fun op _ _ => State.perform_inv op

/-- An error raised is on record. -/
theorem State.raise_inv {s : State} (e : EngineError) (inv : MachineInv s) : MachineInv (s.raise e) := by
  obtain ⟨mem, pc, stack, -⟩ := inv
  exact ⟨mem, pc, stack, .inr (by simp)⟩

/-- R38: the stores write inside memory. -/
theorem State.storeBlock_wf {s : State} (bytes : List Byte) (h : s.mem.wf) : (s.storeBlock bytes).mem.wf :=
  Memory.wf_writeBlock h (List.length_take_le ..)

section
variable {s u t : State} {i : Instr}

theorem Accessed.inv (h : Accessed s i u) (inv : MachineInv s) : MachineInv u := by
  obtain ⟨mem, pc, stack, record⟩ := inv
  cases h with
  | storedDigits | storedRegs => exact ⟨State.storeBlock_wf _ mem, pc, stack, record⟩
  | nothing | loaded | drawn => exact ⟨mem, pc, stack, record⟩

/-- R16: the one address an instruction pushes is `pc + 2`. -/
theorem Effect.inv (h : Effect s i u) (inv : MachineInv s) (hpc : s.pc.toNat ≤ 0x0FFE) : MachineInv u := by
  obtain ⟨mem, pc, stack, record⟩ := inv
  cases h with
  | accessed h => exact h.inv ⟨mem, pc, stack, record⟩
  | call =>
    refine ⟨mem, pc, fun w hw => ?_, record⟩
    rcases List.mem_cons.1 hw with rfl | hw
    · rw [BitVec.toNat_add]; simp; omega
    · exact stack w hw
  | ret top rest hs => exact ⟨mem, pc, fun w hw => stack w (hs ▸ List.mem_cons_of_mem top hw), record⟩
  | regs | ldI | ldF | addI | ldDtVx | ldStVx | cls | drw => exact ⟨mem, pc, stack, record⟩

/-- R15: from a fetchable address every `pc` an instruction can leave is at most `0x10FE`. -/
theorem NextPc.le {w : Word} (h : NextPc s w) (stack : ∀ v ∈ s.stack, v.toNat ≤ 0x1000) (hpc : s.pc.toNat ≤ 0x0FFE) :
    w.toNat ≤ 0x10FE := by
  rcases h with rfl | rfl | rfl | h | h
  · omega
  · rw [BitVec.toNat_add]; simp; omega
  · rw [BitVec.toNat_add]; simp; omega
  · exact h
  · exact (stack w h).trans (by decide)

/-- Every ending of an instruction fetched keeps the invariant. -/
theorem Ended.inv (h : Ended s i t) (inv : MachineInv s) (hpc : s.pc.toNat ≤ 0x0FFE) : MachineInv t := by
  cases h with
  | done effect target =>
    have ⟨_, _, before, _⟩ := inv
    obtain ⟨mem, -, stack, -⟩ := effect.inv inv hpc
    exact ⟨mem, target.le before hpc, stack, .inl rfl⟩
  | failed access => exact State.raise_inv _ (access.inv inv)

end

/-- Settles O26: the host's turn and the timer phase keep the invariant, and then the error of the fetch or the decode,
or the instruction fetched. -/
theorem everyStepKeepsTheInvariant : Obligations.EveryStepKeepsTheInvariant := by
  intro s t inv h
  have prepared := State.prepared_inv inv
  rcases step_cases h with ⟨e, -, rfl⟩ | ⟨i, ⟨b0, b1, fetched, -⟩, he⟩
  · exact State.raise_inv e prepared
  · exact (exec_ended he).inv prepared (State.pc_le_of_fetch_ok fetched)

end Sys2Proof.Machine
end


section
/-! PROOFS. The timer phase (spec/40_cycle_engine.md section 2, R65 to R68): what it leaves, that every step commits it,
and which instructions overwrite it. -/

namespace Sys2Proof.Machine

/-- R66: the boundary in plain arithmetic. -/
theorem boundaryReached_iff (acc : Nat) : boundaryReached acc = true ↔ 1000000000 ≤ 60 * acc := decide_eq_true_iff

/-- R66: a timer drops by one at most. -/
theorem le_countDown_succ (b : Byte) : b.toNat ≤ (countDown b).toNat + 1 := by
  unfold countDown
  split
  · next h => subst h; decide
  · next h =>
    have : b.toNat ≠ 0 := fun e => h (BitVec.eq_of_toNat_eq e)
    rw [BitVec.toNat_sub]
    simp
    omega

section
variable {s : State} {e : Nat}

/-- R66: the timer phase at the boundary. -/
theorem State.timerPhase_of_boundary (h : 1000000000 ≤ 60 * (s.acc + e)) : s.timerPhase e =
    { s with dt := countDown s.dt, st := countDown s.st, acc := 0 } := by
  simp only [State.timerPhase, (boundaryReached_iff _).2 h, if_true]

/-- R65: the timer phase before the boundary. -/
theorem State.timerPhase_of_no_boundary (h : 60 * (s.acc + e) < 1000000000) : s.timerPhase e =
    { s with acc := s.acc + e } := by
  have : ¬ boundaryReached (s.acc + e) = true := fun b => absurd ((boundaryReached_iff _).1 b) (Nat.not_le.2 h)
  simp only [State.timerPhase, if_neg this]

end

theorem State.timerPhase_acc (s : State) (e : Nat) :
    (s.timerPhase e).acc = if 1000000000 ≤ 60 * (s.acc + e) then 0 else s.acc + e := by
  split
  · next h => rw [State.timerPhase_of_boundary h]
  · next h => rw [State.timerPhase_of_no_boundary (Nat.not_le.1 h)]

/-- R66, R67: however much time has passed, the phase lowers each timer by one at most. -/
theorem State.le_timerPhase_succ (s : State) (e : Nat) :
    s.dt.toNat ≤ (s.timerPhase e).dt.toNat + 1 ∧ s.st.toNat ≤ (s.timerPhase e).st.toNat + 1 := by
  rcases Nat.lt_or_ge (60 * (s.acc + e)) 1000000000 with h | h
  · rw [State.timerPhase_of_no_boundary h]; exact ⟨Nat.le_succ _, Nat.le_succ _⟩
  · rw [State.timerPhase_of_boundary h]; exact ⟨le_countDown_succ _, le_countDown_succ _⟩

/-- Settles O13: the phase on either side of the boundary. -/
theorem timersCountDownAtTheSixtiethOfASecond : Obligations.TimersCountDownAtTheSixtiethOfASecond := by
  refine ⟨fun s e h => ?_, fun s e h => ?_, fun a => by omega, fun s e => ⟨rfl, rfl, fun p hp => ?_⟩⟩
  · rw [State.timerPhase_of_boundary h]; exact ⟨rfl, rfl, rfl⟩
  · rw [State.timerPhase_of_no_boundary h]; exact ⟨rfl, rfl, rfl⟩
  · cases p <;> simp_all [Same]

/-- R68: what every step leaves of the timer phase: `acc`, and each timer unless its own instruction was executed
without an error. -/
theorem step_keeps_timerPhase {s t : State} (h : step s = .next t) : t.acc = s.prepared.acc ∧
    ((t.result ≠ .ok ∨ ∀ x, ¬ s.Executes (.ldDtVx x)) → t.dt = s.prepared.dt) ∧
    ((t.result ≠ .ok ∨ ∀ x, ¬ s.Executes (.ldStVx x)) → t.st = s.prepared.st) := by
  rcases step_cases h with ⟨e, -, rfl⟩ | ⟨i, executes, he⟩
  · exact ⟨rfl, fun _ => rfl, fun _ => rfl⟩
  · have ended := exec_ended he
    refine ⟨ended.kept .acc (by decide), fun hd => ?_, fun hs => ?_⟩
    · refine ended.dt ?_
      rintro x rfl
      cases he
      exact hd.elim (fun n => n rfl) (fun n => n x executes)
    · refine ended.st ?_
      rintro x rfl
      cases he
      exact hs.elim (fun n => n rfl) (fun n => n x executes)

/-- R70: a step that executes `i` is `exec i` on the prepared state. -/
theorem exec_of_executes {s t : State} {i : Instr} (hi : s.Executes i) (h : step s = .next t) :
    exec i s.prepared = .next t := by
  obtain ⟨b0, b1, fetched, decoded⟩ := hi
  exact (step_of_decode_ok fetched decoded).symm.trans h

/-- Settles O14: what a step leaves of the phase, and what LD_DT_VX and LD_ST_VX write over it. -/
theorem everyStepCommitsItsTimerPhase : Obligations.EveryStepCommitsItsTimerPhase := by
  intro s t h
  obtain ⟨acc, dt, st⟩ := step_keeps_timerPhase h
  obtain ⟨dtDrop, stDrop⟩ : s.beginTurn.dt.toNat ≤ s.prepared.dt.toNat + 1 ∧
      s.beginTurn.st.toNat ≤ s.prepared.st.toNat + 1 := State.le_timerPhase_succ _ _
  refine ⟨acc.trans (State.timerPhase_acc _ _), fun n => ?_, fun n => ?_, fun n => ?_, fun x hx => ?_, fun x hx => ?_⟩
  · rw [dt (.inl n), st (.inl n)]; exact ⟨rfl, rfl, dtDrop, stDrop⟩
  · rw [dt (.inr n)]; exact ⟨rfl, dtDrop⟩
  · rw [st (.inr n)]; exact ⟨rfl, stDrop⟩
  · cases exec_of_executes hx h; rfl
  · cases exec_of_executes hx h; rfl

end Sys2Proof.Machine
end

section
/-! PROOFS. The record of errors (93 U4) and the latch (spec/46_timer_input.md section 2) along a step. -/

namespace Sys2Proof.Machine

theorem Ended.records {s t : State} {i : Instr} (h : Ended s i t) : (t.result = .ok ∧ t.firstError = s.firstError) ∨
    ∃ e, t.result = .error e ∧ t.firstError = s.firstError.or (some e) := by
  cases h with
  | done effect => exact .inl ⟨rfl, effect.kept .errors (by decide)⟩
  | failed access => exact .inr ⟨_, rfl, congrArg (Option.or · _) (access.kept .errors (by decide))⟩

/-- R125, 93 U4: a step returns `Ok` and leaves the record, or returns an error and records it if it is the first. -/
theorem step_records {s t : State} (h : step s = .next t) : (t.result = .ok ∧ t.firstError = s.firstError) ∨
    ∃ e, t.result = .error e ∧ t.firstError = s.firstError.or (some e) := by
  rw [← s.beginTurn_firstError]
  rcases step_cases h with ⟨e, -, rfl⟩ | ⟨i, -, he⟩
  · exact .inr ⟨e, rfl, rfl⟩
  · exact (exec_ended he).records

/-- Settles O24: by the two ways a step treats the record. -/
theorem firstErrorIsNeverCleared : Obligations.FirstErrorIsNeverCleared := by
  intro s t h
  rcases step_records h with ⟨result, record⟩ | ⟨e, result, record⟩ <;> rw [result, record]
  · exact ⟨fun _ => id, fun _ _ r => (nomatch r), fun n _ => n⟩
  · exact ⟨fun _ h => by rw [h]; rfl, fun _ h r => by rw [h, AdvanceResult.error.inj r]; rfl, fun _ r => nomatch r⟩

/-- R146: no operation but `set_keys` and `reset` writes the latch. -/
theorem State.performAll_key {ops : List HostOp} (hr : HostOp.reset ∉ ops) (hk : ∀ k, HostOp.setKeys k ∉ ops)
    (s : State) : (s.performAll ops).key = s.key :=
  State.performAll_induction (P := fun t => t.key = s.key) rfl fun op hop t ht => by
    cases op with
    | reset => exact absurd hop hr
    | setKeys k => exact absurd hop (hk k)
    | load | display | inspect => exact ht

/-- Decision D4: after reset every key is released. -/
theorem State.reset_keyDown (k : Fin 16) : State.reset.keyDown k = false := by revert k; decide

/-- Settles O16: no effect of an instruction and no error touches the latch; of the host's operations the last write
decides. -/
theorem theLatchIsWrittenOnlyByTheHost : Obligations.TheLatchIsWrittenOnlyByTheHost := by
  refine ⟨fun s keys => ⟨fun _ => rfl, rfl, rfl, s.setKeys_kept keys⟩,
    fun i s t h => (exec_ended h).kept .key (by decide), fun s t h => ?_, fun s rest hr hk =>
      ⟨s.performAll_key hr hk, fun ops keys => ?_, fun ops k => ?_⟩⟩
  · rcases step_cases h with ⟨e, -, rfl⟩ | ⟨i, -, he⟩
    · rfl
    · exact (exec_ended he).kept .key (by decide)
  · rw [State.performAll_append, State.performAll_cons, State.performAll_key hr hk]; rfl
  · rw [State.performAll_append, State.performAll_cons, State.keyDown, State.performAll_key hr hk]
    exact State.reset_keyDown k

end Sys2Proof.Machine
end

section
/-! PROOFS. What no instruction reads (spec/10_state.md section 5, spec/43_alu.md section 4): the accumulator, the sound
timer and, but for RND, the random byte. An instruction run with other values of the three does the same. -/

namespace Sys2Proof.Machine

/-- `s` with other values of the random byte, the accumulator and the sound timer. -/
def State.withUnread (s : State) (r : Byte) (a : Nat) (b : Byte) : State := { s with rnd := r, acc := a, st := b }

section
variable (r : Byte) (a : Nat) (b : Byte)

theorem State.memRead_withUnread (s : State) (k : Nat) :
    (s.withUnread r a b).memRead ((s.withUnread r a b).dataAddr k) = s.memRead (s.dataAddr k) := rfl

theorem State.withUnread_reg (s : State) (x : Nibble) : (s.withUnread r a b).reg x = s.reg x := rfl

/-- A block load run with other values of the three. -/
theorem loadRegs_withUnread (count k : Nat) (s : State) : loadRegs count k (s.withUnread r a b) =
    ((loadRegs count k s).map (·.withUnread r a b)).mapError (Prod.map id (·.withUnread r a b)) := by
  induction count generalizing k s with
  | zero => rfl
  | succ count ih =>
    simp only [loadRegs, State.memRead_withUnread]
    cases s.memRead (s.dataAddr k) with
    | error e => rfl
    | ok v => exact ih (k + 1) (s.setReg (blockReg k) v)

/-- Sprite rows drawn with other values of the three. -/
theorem drawRows_withUnread (vx vy : Byte) (count k : Nat) (hit : Bool) (s : State) :
    drawRows vx vy count k hit (s.withUnread r a b) =
      ((drawRows vx vy count k hit s).map (Prod.map (·.withUnread r a b) id)).mapError
        (Prod.map id (·.withUnread r a b)) := by
  induction count generalizing k hit s with
  | zero => rfl
  | succ count ih =>
    simp only [drawRows, State.memRead_withUnread]
    cases s.memRead (s.dataAddr k) with
    | error e => rfl
    | ok v => exact ih (k + 1) _ { s with display := (drawRow v vx vy k 8 0 (s.display, hit)).1 }

/-- R108: LD_VX_I run with other values of the three. -/
theorem exec_ldVxI_withUnread {x : Nibble} {s t : State} (h : exec (.ldVxI x) s = .next t) :
    exec (.ldVxI x) (s.withUnread r a b) = .next (t.withUnread r a b) := by
  simp only [exec, execLdVxI] at h ⊢
  rw [loadRegs_withUnread]
  cases e : loadRegs (x.toNat + 1) 0 s <;> rw [e] at h <;> cases h <;> rfl

/-- R110: DRW run with other values of the three. -/
theorem exec_drw_withUnread {x y n : Nibble} {s t : State} (h : exec (.drw x y n) s = .next t) :
    exec (.drw x y n) (s.withUnread r a b) = .next (t.withUnread r a b) := by
  simp only [exec, execDrw, State.withUnread_reg] at h ⊢
  rw [drawRows_withUnread]
  cases e : drawRows (s.reg x) (s.reg y) n.toNat 0 false s <;> rw [e] at h <;> cases h <;> rfl

/-- A block store run with other values of the three. -/
theorem finish_storeBytes_withUnread {bytes : List Byte} {s t : State}
    (h : (storeBytes bytes 0 s).finish State.toNext = .next t) :
    (storeBytes bytes 0 (s.withUnread r a b)).finish State.toNext = .next (t.withUnread r a b) := by
  rw [finish_storeBytes] at h ⊢
  change (if bytes.length ≤ 4096 - s.dataAddr 0 then _ else _) = _
  split_ifs at h ⊢ <;> cases h <;> rfl

/-- Every instruction but RND and LD_ST_VX run with other values of the three. -/
theorem exec_withUnread {i : Instr} {s t : State} (h : exec i s = .next t) (hr : ∀ x kk, i ≠ .rnd x kk)
    (hs : ∀ x, i ≠ .ldStVx x) : exec i (s.withUnread r a b) = .next (t.withUnread r a b) := by
  cases i with
  | rnd x kk => exact absurd rfl (hr x kk)
  | ldStVx x => exact absurd rfl (hs x)
  | ldVxI x => exact exec_ldVxI_withUnread r a b h
  | drw x y n => exact exec_drw_withUnread r a b h
  | ldB x => exact finish_storeBytes_withUnread r a b h
  | ldIVx x => exact finish_storeBytes_withUnread r a b h
  | ret =>
    cases hst : s.stack with
    | nil => cases h.symm.trans (exec_ret_of_stack_nil hst); exact exec_ret_of_stack_nil hst
    | cons top rest => cases h.symm.trans (exec_ret_of_stack_cons hst); exact exec_ret_of_stack_cons hst
  | skp x =>
    rcases Nat.lt_or_ge (s.reg x).toNat 16 with hk | hk
    · cases h.symm.trans (exec_skp_of_lt hk); exact exec_skp_of_lt (s := s.withUnread r a b) hk
    · cases h.symm.trans (exec_skp_of_gt hk); exact exec_skp_of_gt (s := s.withUnread r a b) hk
  | sknp x =>
    rcases Nat.lt_or_ge (s.reg x).toNat 16 with hk | hk
    · cases h.symm.trans (exec_sknp_of_lt hk); exact exec_sknp_of_lt (s := s.withUnread r a b) hk
    · cases h.symm.trans (exec_sknp_of_gt hk); exact exec_sknp_of_gt (s := s.withUnread r a b) hk
  | ldVxK x =>
    cases hk : s.firstKey with
    | none => cases h.symm.trans (exec_ldVxK_of_none hk); exact exec_ldVxK_of_none (s := s.withUnread r a b) hk
    | some k => cases h.symm.trans (exec_ldVxK_of_some hk); exact exec_ldVxK_of_some (s := s.withUnread r a b) hk
  | _ => cases h; rfl

end

/-- Settles O20: LD_ST_VX does not read the byte either, and no other instruction does; `acc` and `ST` come out as they
went in. -/
theorem onlyRndReadsTheRandomByte : Obligations.OnlyRndReadsTheRandomByte := by
  intro i s b hr
  obtain ⟨t, h, ended⟩ := exec_ends i s
  simp only [h]
  by_cases hs : ∃ x, i = .ldStVx x
  · obtain ⟨x, rfl⟩ := hs
    cases h; rfl
  · have acc : t.acc = s.acc := ended.kept .acc (by decide)
    have st : t.st = s.st := ended.st fun x e => hs ⟨x, e⟩
    refine (exec_withUnread b s.acc s.st h hr fun x e => hs ⟨x, e⟩).trans (congrArg _ ?_)
    rw [← acc, ← st]; rfl

/-- Settles O21: LD_ST_VX overwrites `ST` with its register; the random byte comes out as it went in. -/
theorem noInstructionReadsAccumulatorOrSoundTimer : Obligations.NoInstructionReadsAccumulatorOrSoundTimer := by
  intro i s a b
  obtain ⟨t, h, ended⟩ := exec_ends i s
  simp only [h]
  by_cases hs : ∃ x, i = .ldStVx x
  · rw [if_pos hs]
    obtain ⟨x, rfl⟩ := hs
    cases h; rfl
  · rw [if_neg hs]
    by_cases hr : ∃ x kk, i = .rnd x kk
    · obtain ⟨x, kk, rfl⟩ := hr
      cases h; rfl
    · have rnd : t.rnd = s.rnd := (ended.kept .host (by decide)).1
      refine (exec_withUnread s.rnd a b h (fun x kk e => hr ⟨x, kk, e⟩) fun x e => hs ⟨x, e⟩).trans (congrArg _ ?_)
      rw [← rnd]; rfl

end Sys2Proof.Machine
end


section
/-! PROOFS. Memory (spec/20_memory.md section 4, log entry 8): the checked accesses, and that canonical memories with
the same contents are the same list. -/

namespace Sys2Proof.Machine

/-! ## The canonical form is unique -/

/-- In canonical memory the listed cells are those that are found. -/
theorem Memory.find_eq_some_iff {m : Memory} (h : m.wf) (a : Nat) (b : Byte) :
    Memory.find a m = some b ↔ (a, b) ∈ m := by
  induction m with
  | nil => simp [Memory.find]
  | cons c m ih =>
    obtain ⟨rising, -, rest⟩ := Memory.wf_cons.1 h
    rw [Memory.find, List.mem_cons, ← ih rest]
    split
    · next e =>
      subst e
      have absent : Memory.find c.1 m ≠ some b := fun f => Nat.lt_irrefl _ (rising (c.1, b) ((ih rest).1 f))
      simp [absent, Prod.ext_iff, eq_comm]
    · next e => simp [Prod.ext_iff, Ne.symm e]

/-- In canonical memory an address is listed exactly where it reads as something else than after reset. -/
theorem Memory.find_eq_some_iff_read {m : Memory} (h : m.wf) (a : Nat) (b : Byte) :
    Memory.find a m = some b ↔ m.read a = b ∧ b ≠ Memory.initial a := by
  rw [Memory.read]
  cases f : Memory.find a m with
  | none => simpa using fun e => e.symm
  | some c =>
    have differs : c ≠ Memory.initial a := (h.2 _ ((Memory.find_eq_some_iff h a c).1 f)).2
    constructor
    · rintro ⟨⟩; exact ⟨rfl, differs⟩
    · rintro ⟨rfl, -⟩; rfl

/-- Two canonical memories that read the same everywhere list the same cells, in the one rising order. -/
theorem Memory.eq_of_read {m n : Memory} (hm : m.wf) (hn : n.wf) (h : ∀ a, m.read a = n.read a) : m = n := by
  have nodup : ∀ {l : Memory}, l.wf → l.Nodup := fun hl =>
    List.Pairwise.imp (fun lt e => Nat.ne_of_lt lt (congrArg Prod.fst e)) hl.1
  refine List.Perm.eq_of_pairwise (fun c d _ _ lt gt => absurd lt (Nat.lt_asymm gt)) hm.1 hn.1
    ((List.perm_ext_iff_of_nodup (nodup hm) (nodup hn)).2 fun c => ?_)
  rw [← Memory.find_eq_some_iff hm c.1 c.2, ← Memory.find_eq_some_iff hn c.1 c.2, Memory.find_eq_some_iff_read hm,
    Memory.find_eq_some_iff_read hn, h]

/-- R145: a load that is accepted. -/
theorem State.load_of_le (s : State) (p : Program) : s.load p.bytes = .next (s.loadProgram p) := dif_pos p.fits

/-- 93 U1: a load that is refused. -/
theorem State.load_of_gt {s : State} {bytes : List Byte} (h : 3584 < bytes.length) :
    s.load bytes = .refused .loadTooLong := dif_neg (Nat.not_le.2 h)

/-- R145: a load that answers a next state was one of a program. -/
theorem State.load_cases {s t : State} {bytes : List Byte} (h : s.load bytes = .next t) :
    ∃ p : Program, t = s.loadProgram p := by
  unfold State.load at h
  split at h
  · next fits => cases h; exact ⟨⟨bytes, fits⟩, rfl⟩
  · cases h

/-- Settles O28: a write and a block written inside memory keep the form, and the contents determine the cells. -/
theorem canonicalMemoryIsKeptAndUnique : Obligations.CanonicalMemoryIsKeptAndUnique := by
  refine ⟨fun m a b hm ha => Memory.wf_write hm ha b, fun s bytes t hs h => ?_, fun m n => Memory.eq_of_read⟩
  obtain ⟨p, rfl⟩ := State.load_cases h
  exact Memory.wf_writeBlock hs p.fits

/-! ## Checked accesses -/

/-- R37 in the terms of the statements. -/
theorem State.memRead_eq (s : State) (a : Nat) :
    s.memRead a = if 4095 < a then .error (.outOfBounds a) else .ok (s.mem.read a) := by
  split
  · next h => exact State.memRead_of_ge h
  · next h => exact State.memRead_of_lt (by omega)

/-- R42: the bytes a fetch answers are those memory reads at `pc` and `pc + 1`. -/
theorem State.fetch_bytes {s : State} {b0 b1 : Byte} (h : s.fetch = .ok (b0, b1)) :
    b0 = s.mem.read s.pc.toNat ∧ b1 = s.mem.read (s.pc.toNat + 1) := by
  rw [State.fetch_of_le (State.pc_le_of_fetch_ok h)] at h
  cases h
  exact ⟨rfl, rfl⟩

/-- Settles O27: a write inside memory replaces its byte, which the next reads and the next fetch see. -/
theorem accessesAreCheckedAndTakeEffectAtOnce : Obligations.AccessesAreCheckedAndTakeEffectAtOnce := by
  refine ⟨State.memRead_eq, fun s a b h => State.memWrite_of_ge h b, fun s a b h => ?_⟩
  have written : (s.mem.write a b).read a = b := by simp
  refine ⟨_, State.memWrite_of_lt (Nat.lt_succ_of_le h) b, ?_, rfl, rfl, s.mem_replaced_kept _, fun j hj => ?_,
    fun b0 b1 hf => ?_⟩
  · rw [State.memRead_of_lt (Nat.lt_succ_of_le h), written]
  · exact (Memory.read_write ..).trans (if_neg hj)
  · obtain ⟨h0, h1⟩ := State.fetch_bytes hf
    exact ⟨fun e => by rw [h0, e, written], fun e => by rw [h1, e, written]⟩

end Sys2Proof.Machine
end

section
/-! PROOFS. Reset and the host's operations (spec/10_state.md section 10, spec/70_reset_and_hazards.md). -/

namespace Sys2Proof.Machine

theorem State.reset_reg (x : Nibble) : State.reset.reg x = 0 := by simp [State.reg, State.reset]

/-- R28, R40: the font of 80 bytes at its base, zero everywhere else. -/
theorem Memory.initial_eq (a : Nat) : Memory.initial a =
    if Config.fontBase ≤ a ∧ a < Config.fontBase + 80 then Config.font.getD (a - Config.fontBase) 0 else 0 := by
  rw [Memory.initial]
  by_cases h : a < Config.fontBase + 80
  · simp only [h, and_true]
  · have len : Config.font.length ≤ a - Config.fontBase := by
      rw [show Config.font.length = 80 from rfl]; omega
    rw [List.getD_eq_default _ _ len, ite_self, if_neg fun c => h c.2]

/-- Settles O1: each piece is written out in `State.reset`; unlisted memory is the font. -/
theorem resetLeavesEveryPieceAtItsValue : Obligations.ResetLeavesEveryPieceAtItsValue :=
  ⟨State.reset_reg, rfl, rfl, rfl, rfl, rfl, rfl, fun a _ => Memory.initial_eq a, Display.pixel_dark,
    State.reset_keyDown⟩

/-- R141: no operation but `load` puts anything into an empty machine. -/
theorem State.performAll_empty {ops : List HostOp} (h : ∀ p, HostOp.load p ∉ ops) {s : State}
    (empty : s.mem = [] ∧ s.pc = 0x200) : (s.performAll ops).mem = [] ∧ (s.performAll ops).pc = 0x200 :=
  State.performAll_induction (P := fun t => t.mem = [] ∧ t.pc = 0x200) empty fun op hop t ht => by
    cases op with
    | load p => exact absurd hop (h p)
    | reset => exact ⟨rfl, rfl⟩
    | setKeys | display | inspect => exact ht

/-- Settles O2: memory stays empty through the turn's operations, so that `0x0000` is fetched, a SYS. -/
theorem emptyMachineReportsUnsupportedCall : Obligations.EmptyMachineReportsUnsupportedCall := by
  intro turn noLoad
  let s : State := { State.reset with script := [turn] }
  obtain ⟨mem, pc⟩ : s.beginTurn.mem = [] ∧ s.beginTurn.pc = 0x200 := State.performAll_empty noLoad ⟨rfl, rfl⟩
  have fetched : s.beginTurn.fetch = .ok (0, 0) := by
    rw [State.fetch_of_le (by rw [pc]; decide), mem, pc]; rfl
  have decoded : decode 0 0 = .ok (.sys 0) := by decide
  exact ⟨_, step_of_decode_ok fetched decoded, rfl, pc⟩

/-- R145: what memory reads after a program is loaded. -/
theorem State.loadProgram_read (s : State) (p : Program) (a : Nat) :
    (s.loadProgram p).mem.read a = if 0x200 ≤ a then (p.bytes[a - 0x200]?).getD (s.mem.read a) else s.mem.read a :=
  Memory.read_writeBlock ..

/-- R148. -/
theorem State.inspectReg_of_gt {s : State} {n : Nat} (h : 15 < n) : s.inspectReg n = .error (.outOfBounds n) :=
  dif_neg (Nat.not_lt.2 h)

/-- Settles O29: a load that fits is the block written at `0x200`; the inspection reads are checks and projections. -/
theorem hostLoadAndInspectionDoWhatTheySay : Obligations.HostLoadAndInspectionDoWhatTheySay := by
  refine ⟨fun s bytes h => ?_, fun s bytes h => State.load_of_gt h, fun s x => dif_pos (nibble_lt x),
    fun s n h => State.inspectReg_of_gt h, fun s a h => State.memRead_of_lt (Nat.lt_succ_of_le h),
    fun s a h => State.memRead_of_ge h, fun s => ⟨rfl, rfl, rfl, rfl⟩⟩
  refine ⟨_, s.load_of_le ⟨bytes, h⟩, rfl, rfl, s.mem_replaced_kept _, fun j b hj => ?_, fun a ha => ?_⟩
  · rw [State.loadProgram_read, if_pos (Nat.le_add_right ..), Nat.add_sub_cancel_left, hj]; rfl
  · rw [State.loadProgram_read]
    split
    · next start => rw [List.getElem?_eq_none (by show bytes.length ≤ _; omega)]; rfl
    · rfl

/-- R140: a reset gives the state after reset but for the model's own fields. -/
theorem State.hostReset_kept (s : State) : KeptExcept [.errors, .host] State.reset s.hostReset := by
  intro p hp; cases p <;> simp_all [Same]

/-- Settles O30: each operation is the state transformer it names, and a list is done in order. -/
theorem theHostMayDoAnyOperationBetweenCalls : Obligations.TheHostMayDoAnyOperationBetweenCalls :=
  ⟨fun s => ⟨rfl, rfl, s.hostReset_kept, rfl, rfl, rfl, rfl⟩, fun s p => ⟨p.fits, s.load_of_le p⟩, fun _ _ => rfl,
    fun _ => ⟨rfl, rfl⟩, fun _ => rfl, fun _ _ _ => rfl⟩

end Sys2Proof.Machine
end


section
/-! PROOFS. Control transfer and skips (spec/41_flow.md, spec/42_skip.md): each instruction ends in a jump, and what the
fetch at its target answers. -/

namespace Sys2Proof.Machine

/-- Settles O31: SYS answers the error entry on the state it ran in. -/
theorem sysAlwaysRaisesUnsupportedExternalCall : Obligations.SysAlwaysRaisesUnsupportedExternalCall := fun _ s =>
  ⟨_, .intro rfl rfl rfl, s.raise_kept _⟩

/-- Settles O32: the stack without its top entry, then the jump there. -/
theorem retTakesTheMostRecentReturnAddress : Obligations.RetTakesTheMostRecentReturnAddress := fun s _ rest h =>
  ⟨_, ⟨exec_ret_of_stack_cons h, rfl⟩, rfl, rfl, (s.stack_replaced_kept rest).trans (State.goTo_kept _ _)⟩

/-- R79: JP is a jump to its field. -/
theorem exec_jp (nnn : Addr) (s : State) : exec (.jp nnn) s = .next (s.goTo (zextAddr nnn)) := rfl

/-- Settles O34: the jump, and the fetch at an address field, which fails at the last one only. -/
theorem jpReplacesThePc : Obligations.JpReplacesThePc := by
  refine ⟨fun nnn => everyWellFormedInstructionDecodesFromItsWord (.jp nnn) rfl, fun nnn s => ?_⟩
  have pc : (s.goTo (zextAddr nnn)).pc.toNat = nnn.toNat := zextAddr_toNat nnn
  refine ⟨_, ⟨exec_jp nnn s, rfl⟩, pc, s.goTo_kept _, fun h => ?_, fun h => ?_⟩
  · rw [State.fetch_eq, pc, h]; rfl
  · have last : nnn.toNat ≠ 0xFFF := fun e => h (BitVec.eq_of_toNat_eq e)
    rw [State.fetch_of_le (by omega), pc, State.goTo_mem]

/-- Settles O35: the push, then the jump. -/
theorem callPushesTheNextAddressAndJumps : Obligations.CallPushesTheNextAddressAndJumps := fun nnn s =>
  ⟨_, ⟨exec_call nnn s, rfl⟩, zextAddr_toNat nnn, rfl, (s.stack_replaced_kept _).trans (State.goTo_kept _ _)⟩

/-- Settles O36: the entry that CALL pushed is the one RET takes. -/
theorem retReturnsAfterTheMatchingCall : Obligations.RetReturnsAfterTheMatchingCall := fun nnn s =>
  ⟨_, ⟨exec_call nnn s, rfl⟩, fun _ h => ⟨_, ⟨exec_ret_of_stack_cons h, rfl⟩, rfl, rfl⟩⟩

/-- Settles O37: the jump to the sum, which does not wrap. -/
theorem jpV0AddsRegisterZero : Obligations.JpV0AddsRegisterZero := fun nnn s =>
  ⟨_, ⟨rfl, rfl⟩, jpV0_target_toNat nnn (s.reg 0), s.goTo_kept _⟩

/-- R72: an instruction that answers a conditional skip passes over one instruction exactly where its condition
holds. -/
theorem exists_completes_of_skipIf {i : Instr} {s : State} {taken : Bool} {P : Prop} [Decidable P]
    (h : exec i s = .next (s.skipIf taken)) (hP : taken = true ↔ P) :
    ∃ t, Completes i s t ∧ KeptExcept [] s t ∧ t.pc = if P then s.pc + 4 else s.pc + 2 :=
  ⟨_, ⟨h, rfl⟩, s.goTo_kept _, if_congr hP rfl rfl⟩

/-- R51 rows 8 and 20: the words `5xy_` and `9xy_` decode with last nibble 0 only. -/
theorem decodeWord_skipReg (x y n0 : Nibble) :
    decodeWord (0x5#4 ++ x ++ y ++ n0) =
      (if n0 = 0 then .ok (.seReg x y) else .error (.invalidInstruction 5 x y n0)) ∧
    decodeWord (0x9#4 ++ x ++ y ++ n0) =
      (if n0 = 0 then .ok (.sneReg x y) else .error (.invalidInstruction 9 x y n0)) := by
  rw [decodeWord_nibbles, decodeWord_nibbles]
  by_cases h : n0 = 0
  · subst h; exact ⟨rfl, rfl⟩
  · have noSe : decodeNibbles 0x5#4 x y n0 = none := if_neg h
    have noSne : decodeNibbles 0x9#4 x y n0 = none := if_neg h
    rw [noSe, noSne, if_neg h, if_neg h]
    exact ⟨rfl, rfl⟩

/-- Settles O38: the words by their rows, the skips by their conditions, and the fetch beyond memory. -/
theorem skipsPassOverOneInstructionWhenTaken : Obligations.SkipsPassOverOneInstructionWhenTaken :=
  ⟨fun x kk => ⟨everyWellFormedInstructionDecodesFromItsWord (.seImm x kk) rfl,
      everyWellFormedInstructionDecodesFromItsWord (.sneImm x kk) rfl⟩,
    decodeWord_skipReg,
    fun _ _ _ => exists_completes_of_skipIf rfl beq_iff_eq, fun _ _ _ => exists_completes_of_skipIf rfl bne_iff_ne,
    fun _ _ _ => exists_completes_of_skipIf rfl beq_iff_eq, fun _ _ _ => exists_completes_of_skipIf rfl bne_iff_ne,
    fun t h => ⟨t.pc.toNat, by rw [State.fetch_eq, h]; rfl⟩⟩

end Sys2Proof.Machine
end

section
/-! PROOFS. Registers and ALU (spec/43_alu.md): each instruction answers a plain or a flagged result (R86); the results
and the flags as numbers. -/

namespace Sys2Proof.Machine

/-- R86, D10: an instruction that answers a flagged result completes with both written, the flag last. -/
theorem exists_completes_of_flaggedResult {i : Instr} {s : State} {x : Nibble} {r f : Byte}
    (h : exec i s = .next (s.flaggedResult x r f)) :
    ∃ t, Completes i s t ∧ (x ≠ 15 → t.reg x = r) ∧ t.reg 15 = f ∧ RegsKeptExcept (fun q => q = x ∨ q = 15) s t ∧
      KeptExcept [.regs] s t ∧ t.pc = s.pc + 2 :=
  ⟨_, ⟨h, rfl⟩, s.flaggedResult_spec x r f⟩

/-- Settles O40: five plain results. -/
theorem plainAluInstructionsWriteOnlyTheirDestination : Obligations.PlainAluInstructionsWriteOnlyTheirDestination := by
  refine ⟨fun x kk s => ?_, fun _ _ _ => exists_completes_of_plainResult rfl,
    fun _ _ _ => exists_completes_of_plainResult rfl, fun _ _ _ => exists_completes_of_plainResult rfl,
    fun _ _ _ => exists_completes_of_plainResult rfl⟩
  obtain ⟨t, done, sum, rest⟩ :=
    exists_completes_of_plainResult (show exec (.addImm x kk) s = .next (s.plainResult x (s.reg x + kk)) from rfl)
  exact ⟨t, done, by rw [sum, BitVec.toNat_add], rest⟩

/-! ## Flags (R100) -/

theorem flagByte_decide (P : Prop) [Decidable P] : flagByte (decide P) = if P then 1 else 0 := by
  simp only [flagByte, decide_eq_true_eq]

theorem flagByte_toNat (b : Bool) : (flagByte b).toNat = b.toNat := by cases b <;> rfl

/-- R93. -/
theorem carryFlag_eq (a b : Byte) : carryFlag a b = if 255 < a.toNat + b.toNat then 1 else 0 := flagByte_decide _

/-- R94, R96, decision D11. -/
theorem noBorrowFlag_eq (a b : Byte) :
    noBorrowFlag Config.subFlagStrict a b = if b.toNat ≤ a.toNat then 1 else 0 := flagByte_decide _

/-- R95. -/
theorem shiftedOutRight_toNat (b : Byte) : (shiftedOutRight b).toNat = b.toNat % 2 := by
  rw [shiftedOutRight, flagByte_toNat, BitVec.getLsbD, Nat.toNat_testBit]; omega

/-- R97. -/
theorem shiftedOutLeft_toNat (b : Byte) : (shiftedOutLeft b).toNat = b.toNat / 128 := by
  rw [shiftedOutLeft, flagByte_toNat, BitVec.getLsbD, Nat.toNat_testBit]; omega

/-- R104, decision D13. -/
theorem indexRangeFlag_eq (i : Word) (a : Byte) :
    indexRangeFlag i a = if 0x0FFF < i.toNat + a.toNat then 1 else 0 := flagByte_decide _

/-! ## Results -/

/-- R94: the difference modulo 256. -/
theorem toNat_sub_byte (a b : Byte) : (a - b).toNat = (a.toNat + 256 - b.toNat) % 256 := by
  rw [BitVec.toNat_sub]; omega

/-- Settles O41: the flagged result of the sum. -/
theorem addRegWritesSumThenCarry : Obligations.AddRegWritesSumThenCarry := by
  intro x y s
  obtain ⟨t, done, sum, flag, rest⟩ := exists_completes_of_flaggedResult (i := .addReg x y) (s := s) rfl
  exact ⟨t, done, fun h => by rw [sum h, BitVec.toNat_add], by rw [flag, carryFlag_eq], rest⟩

/-- Settles O42: the flagged results of the two differences. -/
theorem subtractionsWriteDifferenceThenNotBorrow : Obligations.SubtractionsWriteDifferenceThenNotBorrow := by
  constructor <;> intro x y s
  · obtain ⟨t, done, difference, flag, rest⟩ := exists_completes_of_flaggedResult (i := .sub x y) (s := s) rfl
    exact ⟨t, done, fun h => by rw [difference h, toNat_sub_byte], by rw [flag, noBorrowFlag_eq], rest⟩
  · obtain ⟨t, done, difference, flag, rest⟩ := exists_completes_of_flaggedResult (i := .subn x y) (s := s) rfl
    exact ⟨t, done, fun h => by rw [difference h, toNat_sub_byte], by rw [flag, noBorrowFlag_eq], rest⟩

/-- Settles O43: the flagged results of the two shifts. -/
theorem shiftsReadTheSecondRegister : Obligations.ShiftsReadTheSecondRegister := by
  constructor <;> intro x y s
  · obtain ⟨t, done, shifted, flag, rest⟩ := exists_completes_of_flaggedResult (i := .shr x y) (s := s) rfl
    exact ⟨t, done, fun h => by rw [shifted h, BitVec.toNat_ushiftRight, Nat.shiftRight_one],
      by rw [flag, shiftedOutRight_toNat], rest⟩
  · obtain ⟨t, done, shifted, flag, rest⟩ := exists_completes_of_flaggedResult (i := .shl x y) (s := s) rfl
    exact ⟨t, done, fun h => by rw [shifted h, BitVec.toNat_shiftLeft, Nat.shiftLeft_eq],
      by rw [flag, shiftedOutLeft_toNat], rest⟩

/-- Settles O44: a plain result of the random byte. -/
theorem rndMasksTheRandomByte : Obligations.RndMasksTheRandomByte := fun _ _ _ => exists_completes_of_plainResult rfl

end Sys2Proof.Machine
end

section
/-! PROOFS. The index register (spec/44_index_memory.md section 2), and the timer and keypad instructions
(spec/46_timer_input.md). -/

namespace Sys2Proof.Machine

/-- Settles O45: the word by its row, and `I` is the field. -/
theorem ldILoadsTheAddressField : Obligations.LdILoadsTheAddressField :=
  ⟨fun nnn => everyWellFormedInstructionDecodesFromItsWord (.ldI nnn) rfl, fun nnn s =>
    ⟨_, ⟨rfl, rfl⟩, zextAddr_toNat nnn, zextAddr_le nnn, (s.setIndex_kept _).trans (State.goTo_kept _ _), rfl⟩⟩

/-- Settles O46: `I`, then the flag, then the move of `pc`. -/
theorem addIAddsAndFlagsTheRange : Obligations.AddIAddsAndFlagsTheRange := by
  intro x s
  refine ⟨_, ⟨rfl, rfl⟩, ?_, (State.setReg_reg _ flagReg _ 15).trans (indexRangeFlag_eq _ _), fun r hr => ?_, ?_, rfl⟩
  · show (s.i + zextByte (s.reg x)).toNat = _
    rw [BitVec.toNat_add, zextByte_toNat]
  · exact (State.setReg_reg _ flagReg _ r).trans (if_neg hr)
  · exact (((s.setIndex_kept _).trans (State.setReg_kept _ _ _)).trans (State.goTo_kept _ _)).mono (by decide)

/-- R105: the glyph address does not wrap. -/
theorem glyph_toNat (b : Byte) :
    (BitVec.ofNat 16 Config.fontBase + 5 * zextByte b).toNat = Config.fontBase + 5 * b.toNat := by
  rw [BitVec.toNat_add, BitVec.toNat_mul, zextByte_toNat]
  have five : (5 : Word).toNat = 5 := rfl
  simp only [Config.fontBase, BitVec.toNat_ofNat, five]
  omega

/-- Settles O47: `I` is the glyph's address. -/
theorem ldFPointsAtTheGlyph : Obligations.LdFPointsAtTheGlyph := fun x s =>
  ⟨_, ⟨rfl, rfl⟩, glyph_toNat (s.reg x), (s.setIndex_kept _).trans (State.goTo_kept _ _), rfl⟩

/-- Settles O58: LD_VX_DT answers a plain result, the other two replace one timer. -/
theorem timerMovesCopyOneByte : Obligations.TimerMovesCopyOneByte :=
  ⟨fun _ _ => exists_completes_of_plainResult rfl,
    fun _ s => ⟨_, ⟨rfl, rfl⟩, rfl, (s.setDt_kept _).trans (State.goTo_kept _ _), rfl⟩,
    fun _ s => ⟨_, ⟨rfl, rfl⟩, rfl, (s.setSt_kept _).trans (State.goTo_kept _ _), rfl⟩⟩

/-- Settles O59: with a key number the two are conditional skips, else the error entry. -/
theorem keySkipsTestTheNumberedKey : Obligations.KeySkipsTestTheNumberedKey :=
  ⟨fun _ _ h => exists_completes_of_skipIf (exec_skp_of_lt h) Iff.rfl,
    fun _ _ h => exists_completes_of_skipIf (exec_sknp_of_lt h) (iff_of_eq (Bool.not_eq_true' _)),
    fun _ s h => ⟨_, .intro (exec_skp_of_gt h) rfl rfl, s.raise_kept _⟩,
    fun _ s h => ⟨_, .intro (exec_sknp_of_gt h) rfl rfl, s.raise_kept _⟩⟩

/-- R118: the key found is the least one pressed. -/
theorem State.firstKey_of_least {s : State} {k : Fin 16} (down : s.keyDown k = true)
    (least : ∀ j, j < k → s.keyDown j = false) : s.firstKey = some k :=
  List.find?_eq_some_iff_getElem.2 ⟨down, k.val, by simp, by simp, fun j hj => by simpa using least ⟨j, _⟩ hj⟩

/-- R118: with none pressed no key is found. -/
theorem State.firstKey_of_none {s : State} (h : ∀ k, s.keyDown k = false) : s.firstKey = none :=
  List.find?_eq_none.2 fun k _ => by simp [h k]

/-- Settles O60: the stall is a jump to `pc`, and the key taken a plain result. -/
theorem keyWaitStallsOrTakesTheLeastKey : Obligations.KeyWaitStallsOrTakesTheLeastKey := by
  refine ⟨fun x s h => ⟨_, ⟨exec_ldVxK_of_none (State.firstKey_of_none h), rfl⟩, rfl, s.goTo_kept _⟩,
    fun x s k down least => ?_⟩
  obtain ⟨t, done, key, rest⟩ :=
    exists_completes_of_plainResult (exec_ldVxK_of_some (x := x) (State.firstKey_of_least down least))
  exact ⟨t, done, by rw [key, BitVec.toNat_ofNat]; omega, rest⟩

end Sys2Proof.Machine
end
